-- ==== Sys2Proof/Word.lean ====
section
/-! DEFINITION. The word types of the chippie CORE (00_scope.md R6, R8, R9). All values are unsigned. -/

namespace Sys2Proof

/-- An 8-bit value: a general register, a timer, a memory cell, an immediate `kk` (R6, R71). -/
abbrev Byte := BitVec 8

/-- A 16-bit value: an opcode, `PC`, `I`, `KEYS`, a stack slot (R6). -/
abbrev Word := BitVec 16

/-- The 12-bit address field `nnn` of an opcode (R71). -/
abbrev Addr := BitVec 12

/-- The index of a general register, `0..15` (R20, R89). -/
abbrev Reg := Fin 16

/-- The row count `n` of a sprite, `0..15` (R71, R72). -/
abbrev SpriteLen := Fin 16

end Sys2Proof
end

