-- ==== Sys2Proof/Config.lean ====
section
/-! DEFINITION. The fixed sizes of the machine (00_scope.md R6) and the parameters the spec leaves open (R7):
the timer divider and the random byte, each an opaque constant no proof can see into. The font bytes and the class-F
bytes are parameters for which the spec prints a default: their types stand here, the defaults are `Machine.fontTable`
(Machine/Font.lean) and `classFBytes` (Decode.lean). -/

namespace Sys2Proof.Config

/-- `MEM_SIZE`: 4096 bytes, addresses 0 to 4095 (R6, R29, 90_conflicts.md C2). -/
abbrev memSize : Nat := 4096

/-- `PROGRAM_BASE`: the first byte of a loaded program and the reset value of `PC` (R6, R54). -/
abbrev programBase : Nat := 0x200

/-- `MAX_ROM_LEN`: 4096 - 0x200 = 3584 bytes (R6, R201). -/
abbrev maxRomLen : Nat := memSize - programBase

/-- `STACK_DEPTH`: 32 slots (R6, R25). -/
abbrev stackDepth : Nat := 32

/-- `SCREEN_W`: 64 columns (R6, R30). -/
abbrev screenW : Nat := 64

/-- `SCREEN_H`: 32 rows (R6, R30). -/
abbrev screenH : Nat := 32

/-- `NUM_REGS`: 16 general registers (R6, R20). -/
abbrev numRegs : Nat := 16

/-- `NUM_KEYS`: 16 logical keys (R6, R180). -/
abbrev numKeys : Nat := 16

/-- `FONT_GLYPH_BYTES`: 5 bytes a glyph (R6, R33). -/
abbrev fontGlyphBytes : Nat := 5

/-- `FONT_LEN`: 16 glyphs of 5 bytes (R6, R33). -/
abbrev fontLen : Nat := 80

/-- `TIMER_HZ`: the timer rate, in the sense of R6: it divides `TICKS_PER_SECOND`. -/
abbrev timerHz : Nat := 60

/-- By how much `TICKS_PER_SECOND` exceeds 60: OPEN in the spec (R7, decision D2), so it has no value here
(notes/assumptions/1.md). -/
opaque ticksAboveSixty : Nat

/-- `TICKS_PER_SECOND`, the nominal instruction rate: any natural number that is at least 60 (R7, D2). -/
def ticksPerSecond : Nat := timerHz + ticksAboveSixty

/-- `TIMER_DIVIDER = TICKS_PER_SECOND div 60`, the source's `N`; at least 1 (R7, D2). -/
def timerDivider : Nat := ticksPerSecond / timerHz

/-- FREE VALUE. The byte `rnd` that the `k`-th Random draws: an input under no law (43_alu.md R153,
60_exceptions.md R216, decision D29; notes/assumptions/25.md). -/
opaque randomByte (k : Nat) : Byte

end Sys2Proof.Config

namespace Sys2Proof

/-- `FONT`: the 80 bytes of the font sprite table, a parameter of the machine (R7, 10_state.md R33). What depends on it is
the reset, `State.resetWith` and the command `reset()`; the default stands in Machine/Font.lean
(notes/assumptions/17.md). -/
abbrev FontTable := Vector Byte Config.fontLen

/-- The low bytes that select the nine class-F instructions, as ONE named configuration value (30_encoding.md R86).
The source prints none of them; the default stands in Decode.lean (notes/assumptions/3.md). -/
structure ClassFBytes where
  readDelayTimer  : Byte
  waitForKey      : Byte
  setDelayTimer   : Byte
  setSoundTimer   : Byte
  addToIndex      : Byte
  selectCharacter : Byte
  storeBcd        : Byte
  storeRegisters  : Byte
  loadRegisters   : Byte
  deriving DecidableEq, Repr

end Sys2Proof
end

