-- ==== Sys2Proof/Syntax.lean ====
section
/-! DEFINITION. The closed set of instruction variants: 35, one for each row of spec/opcode_table.json
(30_encoding.md R74, in the order of R74's numbering; the "carries" column is the payload). The operand types are the
exact widths of R71 and R72, so an operand outside its field cannot be written down (R89). -/

namespace Sys2Proof

/-- An instruction, as the decoder produces it (R73, R74). -/
inductive Instr where
  /-- `0nnn` but for `00E0` and `00EE`; the twelve low bits are discarded. -/
  | nop
  /-- `00E0` -/
  | clearScreen
  /-- `00EE` (the table's Return) -/
  | ret
  /-- `1nnn` -/
  | jump (nnn : Addr)
  /-- `2nnn` -/
  | call (nnn : Addr)
  /-- `3xkk` -/
  | skipIfEqualValue (x : Reg) (kk : Byte)
  /-- `4xkk` -/
  | skipIfNotEqualValue (x : Reg) (kk : Byte)
  /-- `5xy-`, the low nibble ignored -/
  | skipIfEqualRegister (x y : Reg)
  /-- `6xkk` -/
  | loadValue (x : Reg) (kk : Byte)
  /-- `7xkk` -/
  | addValue (x : Reg) (kk : Byte)
  /-- `8xy0` -/
  | copy (x y : Reg)
  /-- `8xy1` -/
  | or (x y : Reg)
  /-- `8xy2` -/
  | and (x y : Reg)
  /-- `8xy3` -/
  | xor (x y : Reg)
  /-- `8xy4` -/
  | addRegister (x y : Reg)
  /-- `8xy5` -/
  | subtractVxVy (x y : Reg)
  /-- `8xy6`; `y` is carried and not used -/
  | shiftRight (x y : Reg)
  /-- `8xy7` -/
  | subtractVyVx (x y : Reg)
  /-- `8xyE`; `y` is carried and not used -/
  | shiftLeft (x y : Reg)
  /-- `9xy-`, the low nibble ignored -/
  | skipIfNotEqualRegister (x y : Reg)
  /-- `Annn` -/
  | setIndex (nnn : Addr)
  /-- `Bnnn` -/
  | jumpRelative (nnn : Addr)
  /-- `Cxkk` -/
  | random (x : Reg) (kk : Byte)
  /-- `Dxyn` -/
  | draw (x y : Reg) (n : SpriteLen)
  /-- `Ex9E` -/
  | skipIfKeyPressed (x : Reg)
  /-- `ExA1` -/
  | skipIfKeyNotPressed (x : Reg)
  /-- `Fx07` -/
  | readDelayTimer (x : Reg)
  /-- `Fx0A` -/
  | waitForKey (x : Reg)
  /-- `Fx15` -/
  | setDelayTimer (x : Reg)
  /-- `Fx18` -/
  | setSoundTimer (x : Reg)
  /-- `Fx1E` -/
  | addToIndex (x : Reg)
  /-- `Fx29` -/
  | selectCharacter (x : Reg)
  /-- `Fx33` -/
  | storeBcd (x : Reg)
  /-- `Fx55` -/
  | storeRegisters (x : Reg)
  /-- `Fx65` -/
  | loadRegisters (x : Reg)
  deriving DecidableEq, Repr

/-- The variant's name, as R74 and spec/opcode_table.json spell it. -/
def Instr.mnemonic : Instr → String
  | .nop => "Nop"
  | .clearScreen => "ClearScreen"
  | .ret => "Return"
  | .jump _ => "Jump"
  | .call _ => "Call"
  | .skipIfEqualValue _ _ => "SkipIfEqualValue"
  | .skipIfNotEqualValue _ _ => "SkipIfNotEqualValue"
  | .skipIfEqualRegister _ _ => "SkipIfEqualRegister"
  | .loadValue _ _ => "LoadValue"
  | .addValue _ _ => "AddValue"
  | .copy _ _ => "Copy"
  | .or _ _ => "Or"
  | .and _ _ => "And"
  | .xor _ _ => "Xor"
  | .addRegister _ _ => "AddRegister"
  | .subtractVxVy _ _ => "SubtractVxVy"
  | .shiftRight _ _ => "ShiftRight"
  | .subtractVyVx _ _ => "SubtractVyVx"
  | .shiftLeft _ _ => "ShiftLeft"
  | .skipIfNotEqualRegister _ _ => "SkipIfNotEqualRegister"
  | .setIndex _ => "SetIndex"
  | .jumpRelative _ => "JumpRelative"
  | .random _ _ => "Random"
  | .draw _ _ _ => "Draw"
  | .skipIfKeyPressed _ => "SkipIfKeyPressed"
  | .skipIfKeyNotPressed _ => "SkipIfKeyNotPressed"
  | .readDelayTimer _ => "ReadDelayTimer"
  | .waitForKey _ => "WaitForKey"
  | .setDelayTimer _ => "SetDelayTimer"
  | .setSoundTimer _ => "SetSoundTimer"
  | .addToIndex _ => "AddToIndex"
  | .selectCharacter _ => "SelectCharacter"
  | .storeBcd _ => "StoreBcd"
  | .storeRegisters _ => "StoreRegisters"
  | .loadRegisters _ => "LoadRegisters"

end Sys2Proof
end

