-- ==== Sys2Proof/WellFormed.lean ====
section
/-! DEFINITION. What can be ill formed. An `Instr` cannot: every operand has the exact width of its field, which is
R89's "by construction of the decoder". The checks here are on what feeds the decoder: the class-F byte table (nine
DISTINCT bytes, 93_implementation_defined.md part 2), a row of a mask-and-match table (30_encoding.md R92), and an
opcode against such a table (R87: legal; R88: canonical, no discarded bit set). -/

namespace Sys2Proof

/-- The nine bytes in the order of the fields. -/
def ClassFBytes.toList (t : ClassFBytes) : List Byte :=
  [t.readDelayTimer, t.waitForKey, t.setDelayTimer, t.setSoundTimer, t.addToIndex, t.selectCharacter, t.storeBcd,
    t.storeRegisters, t.loadRegisters]

/-- The nine low bytes are pairwise distinct: no opcode selects two class-F instructions. -/
def ClassFBytes.wellFormed (t : ClassFBytes) : Bool := decide t.toList.Nodup

/-- A row of the table-driven decoder of R92: an opcode `op` selects the row when `op AND mask = pattern`.
`ignored` are the bits outside the mask that no field of the row covers (R88). -/
structure OpcodeRow where
  mnemonic : String
  mask     : Word
  pattern  : Word
  ignored  : Word
  deriving DecidableEq, Repr

/-- The pattern lies inside the mask and no ignored bit is fixed. -/
def OpcodeRow.wellFormed (r : OpcodeRow) : Bool :=
  (r.pattern &&& r.mask == r.pattern) && (r.mask &&& r.ignored == 0)

/-- R92: `op AND mask = match`. -/
def OpcodeRow.selects (r : OpcodeRow) (op : Word) : Bool := op &&& r.mask == r.pattern

/-- The first row an opcode selects. R92 tests the two exact class-0 rows before the Nop row. -/
def rowOf (rows : List OpcodeRow) (op : Word) : Option OpcodeRow := rows.find? (·.selects op)

/-- An opcode that selects some row; any other is `InvalidInstruction` (R87, R92). -/
def legalIn (rows : List OpcodeRow) (op : Word) : Bool := (rowOf rows op).isSome

/-- A legal opcode with every ignored bit 0: the canonical encodings of R88. -/
def canonicalIn (rows : List OpcodeRow) (op : Word) : Bool :=
  match rowOf rows op with
  | some r => op &&& r.ignored == 0
  | none => false

end Sys2Proof
end

