-- ==== Sys2Proof/Decode.lean ====
section
/-! DEFINITION. The Instruction Decoder (30_encoding.md R73 to R87): total on any word and on any bytes, rejecting by
name; and after it the encoder, which the source does not describe and whose discarded bits are R88's. Both take the
class-F byte table as an argument, so that a fact that does not depend on it can be stated for every table (R86). -/

namespace Sys2Proof

/-- Why bytes do not decode. -/
inductive DecodeError where
  /-- `InvalidInstruction(op)`: no variant has this opcode (R73, R87). -/
  | invalidInstruction (op : Word)
  /-- Fewer than the two bytes of an instruction (R70). A step never meets it: the fetch check comes first (R101). -/
  | truncated
  deriving DecidableEq, Repr

/-! ## Fields (R71, R72) -/

/-- `class = op[15:12]`. -/
def fieldClass (op : Word) : Nat := (op.extractLsb' 12 4).toNat

/-- `x = op[11:8]`. -/
def fieldX (op : Word) : Reg := (op.extractLsb' 8 4).toFin

/-- `y = op[7:4]`. -/
def fieldY (op : Word) : Reg := (op.extractLsb' 4 4).toFin

/-- `n = op[3:0]`. -/
def fieldN (op : Word) : SpriteLen := (op.extractLsb' 0 4).toFin

/-- `kk = op[7:0]`. -/
def fieldKK (op : Word) : Byte := op.extractLsb' 0 8

/-- `nnn = op[11:0]`. -/
def fieldNNN (op : Word) : Addr := op.extractLsb' 0 12

/-! ## The decoder -/

/-- The default low bytes of class F (R86, decision D4): from general knowledge, not in the source
(notes/assumptions/3.md, PRESUMED). -/
def classFBytes : ClassFBytes where
  readDelayTimer  := 0x07
  waitForKey      := 0x0A
  setDelayTimer   := 0x15
  setSoundTimer   := 0x18
  addToIndex      := 0x1E
  selectCharacter := 0x29
  storeBcd        := 0x33
  storeRegisters  := 0x55
  loadRegisters   := 0x65

/-- Class 0, dispatched on the whole word (R76). -/
def decodeClass0 (op : Word) : Instr :=
  if op = 0x00E0 then .clearScreen else if op = 0x00EE then .ret else .nop

/-- Class 8, dispatched on the low nibble (R81; the pairing is decision D5, notes/assumptions/4.md). -/
def decodeClass8 (op : Word) : Except DecodeError Instr :=
  match (fieldN op).val with
  | 0x0 => .ok (.copy (fieldX op) (fieldY op))
  | 0x1 => .ok (.or (fieldX op) (fieldY op))
  | 0x2 => .ok (.and (fieldX op) (fieldY op))
  | 0x3 => .ok (.xor (fieldX op) (fieldY op))
  | 0x4 => .ok (.addRegister (fieldX op) (fieldY op))
  | 0x5 => .ok (.subtractVxVy (fieldX op) (fieldY op))
  | 0x6 => .ok (.shiftRight (fieldX op) (fieldY op))
  | 0x7 => .ok (.subtractVyVx (fieldX op) (fieldY op))
  | 0xE => .ok (.shiftLeft (fieldX op) (fieldY op))
  | _   => .error (.invalidInstruction op)

/-- Class E, dispatched on the low byte (R85). -/
def decodeClassE (op : Word) : Except DecodeError Instr :=
  if fieldKK op = 0x9E then .ok (.skipIfKeyPressed (fieldX op))
  else if fieldKK op = 0xA1 then .ok (.skipIfKeyNotPressed (fieldX op))
  else .error (.invalidInstruction op)

/-- Class F, dispatched on the low byte by the table `t` (R86). -/
def decodeClassF (t : ClassFBytes) (op : Word) : Except DecodeError Instr :=
  if fieldKK op = t.readDelayTimer then .ok (.readDelayTimer (fieldX op))
  else if fieldKK op = t.waitForKey then .ok (.waitForKey (fieldX op))
  else if fieldKK op = t.setDelayTimer then .ok (.setDelayTimer (fieldX op))
  else if fieldKK op = t.setSoundTimer then .ok (.setSoundTimer (fieldX op))
  else if fieldKK op = t.addToIndex then .ok (.addToIndex (fieldX op))
  else if fieldKK op = t.selectCharacter then .ok (.selectCharacter (fieldX op))
  else if fieldKK op = t.storeBcd then .ok (.storeBcd (fieldX op))
  else if fieldKK op = t.storeRegisters then .ok (.storeRegisters (fieldX op))
  else if fieldKK op = t.loadRegisters then .ok (.loadRegisters (fieldX op))
  else .error (.invalidInstruction op)

/-- The decoder for a class-F table `t`: dispatch on the class nibble, then as the class says (R73, R75 to R86). -/
def decodeWordWith (t : ClassFBytes) (op : Word) : Except DecodeError Instr :=
  match fieldClass op with
  | 0x0 => .ok (decodeClass0 op)
  | 0x1 => .ok (.jump (fieldNNN op))
  | 0x2 => .ok (.call (fieldNNN op))
  | 0x3 => .ok (.skipIfEqualValue (fieldX op) (fieldKK op))
  | 0x4 => .ok (.skipIfNotEqualValue (fieldX op) (fieldKK op))
  | 0x5 => .ok (.skipIfEqualRegister (fieldX op) (fieldY op))
  | 0x6 => .ok (.loadValue (fieldX op) (fieldKK op))
  | 0x7 => .ok (.addValue (fieldX op) (fieldKK op))
  | 0x8 => decodeClass8 op
  | 0x9 => .ok (.skipIfNotEqualRegister (fieldX op) (fieldY op))
  | 0xA => .ok (.setIndex (fieldNNN op))
  | 0xB => .ok (.jumpRelative (fieldNNN op))
  | 0xC => .ok (.random (fieldX op) (fieldKK op))
  | 0xD => .ok (.draw (fieldX op) (fieldY op) (fieldN op))
  | 0xE => decodeClassE op
  | _   => decodeClassF t op

/-- `decode(opcode)` of R73, with the default class-F table. -/
def decodeWord (op : Word) : Except DecodeError Instr := decodeWordWith classFBytes op

/-- The opcode of two bytes, the first the high byte: `op = MEM[a] ++ MEM[a+1]` (20_memory.md R56). -/
def opcodeOf (hi lo : Byte) : Word := hi ++ lo

/-- The two bytes of an opcode as memory holds them, high byte first (R56, R70). -/
def wordBytes (op : Word) : List Byte := [op.extractLsb' 8 8, op.extractLsb' 0 8]

/-- Decode the first instruction of a byte sequence and return the bytes after it (R70: always two bytes). -/
def decodeBytes : List Byte → Except DecodeError (Instr × List Byte)
  | hi :: lo :: rest =>
    match decodeWord (opcodeOf hi lo) with
    | .ok i => .ok (i, rest)
    | .error e => .error e
  | _ => .error .truncated

/-- The instruction the decoder reads from a table word: bit 0 of `w` is the least significant bit of the one 16-bit
word; bits from `nbits` up are 0 (notes/assumptions/30.md). -/
def decodeTableWord (nbits w : Nat) : Option Instr :=
  match decodeBytes (wordBytes (BitVec.ofNat 16 (w % 2 ^ nbits))) with
  | .ok (i, _) => some i
  | .error _ => none

/-! ## The table-driven form (R92) -/

/-- The rows of R92, the two exact class-0 rows before the Nop row. -/
def opcodeRows (t : ClassFBytes) : List OpcodeRow :=
  [ ⟨"ClearScreen", 0xFFFF, 0x00E0, 0x0000⟩, ⟨"Return", 0xFFFF, 0x00EE, 0x0000⟩, ⟨"Nop", 0xF000, 0x0000, 0x0FFF⟩,
    ⟨"Jump", 0xF000, 0x1000, 0x0000⟩, ⟨"Call", 0xF000, 0x2000, 0x0000⟩,
    ⟨"SkipIfEqualValue", 0xF000, 0x3000, 0x0000⟩, ⟨"SkipIfNotEqualValue", 0xF000, 0x4000, 0x0000⟩,
    ⟨"SkipIfEqualRegister", 0xF000, 0x5000, 0x000F⟩, ⟨"LoadValue", 0xF000, 0x6000, 0x0000⟩,
    ⟨"AddValue", 0xF000, 0x7000, 0x0000⟩ ] ++
  [ ⟨"Copy", 0xF00F, 0x8000, 0x0000⟩, ⟨"Or", 0xF00F, 0x8001, 0x0000⟩, ⟨"And", 0xF00F, 0x8002, 0x0000⟩,
    ⟨"Xor", 0xF00F, 0x8003, 0x0000⟩, ⟨"AddRegister", 0xF00F, 0x8004, 0x0000⟩,
    ⟨"SubtractVxVy", 0xF00F, 0x8005, 0x0000⟩, ⟨"ShiftRight", 0xF00F, 0x8006, 0x0000⟩,
    ⟨"SubtractVyVx", 0xF00F, 0x8007, 0x0000⟩, ⟨"ShiftLeft", 0xF00F, 0x800E, 0x0000⟩,
    ⟨"SkipIfNotEqualRegister", 0xF000, 0x9000, 0x000F⟩, ⟨"SetIndex", 0xF000, 0xA000, 0x0000⟩,
    ⟨"JumpRelative", 0xF000, 0xB000, 0x0000⟩, ⟨"Random", 0xF000, 0xC000, 0x0000⟩, ⟨"Draw", 0xF000, 0xD000, 0x0000⟩ ] ++
  [ ⟨"SkipIfKeyPressed", 0xF0FF, 0xE09E, 0x0000⟩, ⟨"SkipIfKeyNotPressed", 0xF0FF, 0xE0A1, 0x0000⟩,
    ⟨"ReadDelayTimer", 0xF0FF, opcodeOf 0xF0 t.readDelayTimer, 0x0000⟩,
    ⟨"WaitForKey", 0xF0FF, opcodeOf 0xF0 t.waitForKey, 0x0000⟩,
    ⟨"SetDelayTimer", 0xF0FF, opcodeOf 0xF0 t.setDelayTimer, 0x0000⟩,
    ⟨"SetSoundTimer", 0xF0FF, opcodeOf 0xF0 t.setSoundTimer, 0x0000⟩,
    ⟨"AddToIndex", 0xF0FF, opcodeOf 0xF0 t.addToIndex, 0x0000⟩,
    ⟨"SelectCharacter", 0xF0FF, opcodeOf 0xF0 t.selectCharacter, 0x0000⟩,
    ⟨"StoreBcd", 0xF0FF, opcodeOf 0xF0 t.storeBcd, 0x0000⟩,
    ⟨"StoreRegisters", 0xF0FF, opcodeOf 0xF0 t.storeRegisters, 0x0000⟩,
    ⟨"LoadRegisters", 0xF0FF, opcodeOf 0xF0 t.loadRegisters, 0x0000⟩ ]

/-! ## The encoder -/

/-- `class x y n`, four nibbles, most significant first (R8, R71). -/
def packXYN (c : BitVec 4) (x y : Reg) (n : BitVec 4) : Word := c ++ BitVec.ofFin (w := 4) x ++ BitVec.ofFin (w := 4) y ++ n

/-- `class x kk` (R71). -/
def packXKK (c : BitVec 4) (x : Reg) (kk : Byte) : Word := c ++ BitVec.ofFin (w := 4) x ++ kk

/-- `class nnn` (R71). -/
def packNNN (c : BitVec 4) (nnn : Addr) : Word := c ++ nnn

/-- The canonical opcode of an instruction for a class-F table `t` (R74's patterns; the discarded bits are 0, R88,
decision D23, notes/assumptions/29.md). -/
def encodeWith (t : ClassFBytes) : Instr → Word
  | .nop => 0x0000
  | .clearScreen => 0x00E0
  | .ret => 0x00EE
  | .jump nnn => packNNN 0x1 nnn
  | .call nnn => packNNN 0x2 nnn
  | .skipIfEqualValue x kk => packXKK 0x3 x kk
  | .skipIfNotEqualValue x kk => packXKK 0x4 x kk
  | .skipIfEqualRegister x y => packXYN 0x5 x y 0x0
  | .loadValue x kk => packXKK 0x6 x kk
  | .addValue x kk => packXKK 0x7 x kk
  | .copy x y => packXYN 0x8 x y 0x0
  | .or x y => packXYN 0x8 x y 0x1
  | .and x y => packXYN 0x8 x y 0x2
  | .xor x y => packXYN 0x8 x y 0x3
  | .addRegister x y => packXYN 0x8 x y 0x4
  | .subtractVxVy x y => packXYN 0x8 x y 0x5
  | .shiftRight x y => packXYN 0x8 x y 0x6
  | .subtractVyVx x y => packXYN 0x8 x y 0x7
  | .shiftLeft x y => packXYN 0x8 x y 0xE
  | .skipIfNotEqualRegister x y => packXYN 0x9 x y 0x0
  | .setIndex nnn => packNNN 0xA nnn
  | .jumpRelative nnn => packNNN 0xB nnn
  | .random x kk => packXKK 0xC x kk
  | .draw x y n => packXYN 0xD x y (BitVec.ofFin (w := 4) n)
  | .skipIfKeyPressed x => packXKK 0xE x 0x9E
  | .skipIfKeyNotPressed x => packXKK 0xE x 0xA1
  | .readDelayTimer x => packXKK 0xF x t.readDelayTimer
  | .waitForKey x => packXKK 0xF x t.waitForKey
  | .setDelayTimer x => packXKK 0xF x t.setDelayTimer
  | .setSoundTimer x => packXKK 0xF x t.setSoundTimer
  | .addToIndex x => packXKK 0xF x t.addToIndex
  | .selectCharacter x => packXKK 0xF x t.selectCharacter
  | .storeBcd x => packXKK 0xF x t.storeBcd
  | .storeRegisters x => packXKK 0xF x t.storeRegisters
  | .loadRegisters x => packXKK 0xF x t.loadRegisters

/-- The canonical opcode with the default class-F table. -/
def encode (i : Instr) : Word := encodeWith classFBytes i

/-- The two bytes of the canonical opcode, as memory holds them (R56). -/
def encodeBytes (i : Instr) : List Byte := wordBytes (encode i)

end Sys2Proof
end

