-- ==== Sys2Proof/Machine/State.lean ====
section
/-! DEFINITION. The architectural state (10_state.md), its reset value (R34) and the reasons a step can stop
(60_exceptions.md R200). State is plain data; INVENTORY.md lists every field with its rule. -/

namespace Sys2Proof.Machine

/-- `MEM[0..4095]` as the cells whose byte differs from the default reset contents of their address, addresses strictly
rising. An address not listed reads as its reset contents under the default `FONT` (R29, R33, R34; notes/assumptions/26.md). -/
structure Memory where
  cells : List Host.Cell
  deriving DecidableEq, Repr

/-- `SCREEN[r][c]`: 32 rows of 64 one-bit pixels (R30). -/
abbrev Screen := Vector (Vector Bool Config.screenW) Config.screenH

/-- Everything the spec gives the machine, and one field of the model's own (`draws`). -/
structure State where
  /-- `V[0]`..`V[15]` (R20); `V[15]` doubles as the flag register (R21). -/
  v : Vector Byte Config.numRegs
  /-- `PC`, the byte address of the next instruction (R22). -/
  pc : Word
  /-- `I`, the index register; all 16 bits are state (R24). -/
  i : Word
  /-- `STACK[0..31]` (R25). -/
  stack : Vector Word Config.stackDepth
  /-- `SP`, the next free slot, 0 = empty, 32 = full (R26, notes/assumptions/21.md). -/
  sp : Fin (Config.stackDepth + 1)
  /-- `MEM` (R29). -/
  mem : Memory
  /-- `SCREEN` (R30). -/
  screen : Screen
  /-- `KEYS`, bit `n` set while logical key `n` is held (R28). -/
  keys : Word
  /-- `DT`, the delay timer (R27). -/
  dt : Byte
  /-- `ST`, the sound timer (R27). -/
  st : Byte
  /-- `CYCLE`, the hidden timer prescaler (R31). -/
  cycle : Nat
  /-- THE MODEL'S OWN, not the spec's: how many random bytes have been drawn. The next Random uses
  `Config.randomByte draws` (R153, notes/assumptions/25.md). -/
  draws : Nat
  deriving DecidableEq, Repr

/-- The error kinds (R200), each of which ends the command that raises it and, by the host's contract, the run (R207;
notes/assumptions/20.md). A fault is safe: the model stops where the source says the command fails. -/
inductive Fault where
  /-- Raised by the host's `load` for a ROM of more than 3584 bytes (R201). Safe. -/
  | romTooLarge
  /-- Raised by the step's decode and by `peek_instruction`: `op` has no mapping (R202). Safe. -/
  | invalidInstruction (op : Word)
  /-- Raised by the step's first stage: `PC + 1 ≥ 4096` (R203). Safe. -/
  | programCounterOutOfBounds (pc : Word)
  /-- Raised by Call with `SP = 32` (R204). Safe. -/
  | callStackDepthExceeded
  /-- Raised by Return with `SP = 0` (R204). Safe. -/
  | callStackEmpty
  /-- Raised by Draw, StoreBcd, StoreRegisters, LoadRegisters and JumpRelative when a span or target lies outside
  memory, by SelectCharacter under a condition that cannot hold, and by `peek_instruction` (R205). Safe. -/
  | memoryAccessError
  /-- Raised by the two key skips when `V[x] > 15`; `value` is `V[x]` (R206). Safe. -/
  | invalidInputKey (value : Byte)
  /-- Raised by the WaitForKey effect run with no key held, which a step never does (R206, R183). Safe. -/
  | expectingInputKey
  deriving DecidableEq, Repr

/-- Why a step has no meaning. -/
inductive Refusal where
  /-- Raised by an arm of `exec` for an instruction that has no meaning yet. Safe. No arm raises it now. -/
  | notModelled (mnemonic : String)
  deriving DecidableEq, Repr

/-- The state right after `reset` (R34, R230) under the default `FONT`: everything zero, `PC = 0x200`, the font in the
first 80 bytes (memory lists no cell), the stack empty. For any `FONT` it is `State.resetWith` of Machine/Ops.lean. `cycle` is 0 by decision D3 (notes/assumptions/2.md); `draws` is the model's own
(DESIGN CHOICE, notes/assumptions/25.md). -/
def State.reset : State where
  v := Vector.replicate Config.numRegs 0
  pc := 0x200
  i := 0
  stack := Vector.replicate Config.stackDepth 0
  sp := 0
  mem := ⟨[]⟩
  screen := Vector.replicate Config.screenH (Vector.replicate Config.screenW false)
  keys := 0
  dt := 0
  st := 0
  cycle := 0
  draws := 0

end Sys2Proof.Machine
end

