-- ==== Sys2Proof/Machine/Font.lean ====
section
/-! DEFINITION. The default of the parameter `FONT`, the 80 bytes of the font sprite table (10_state.md R33). The source prints
none of them: the spec marks the bytes as general knowledge (decision D18; notes/assumptions/17.md, PRESUMED). -/

namespace Sys2Proof.Machine

/-- The default bytes in order: glyph `g` is the five bytes from place `5 * g` (R33). -/
def fontBytes : List Byte :=
  [0xF0, 0x90, 0x90, 0x90, 0xF0] ++ [0x20, 0x60, 0x20, 0x20, 0x70] ++ [0xF0, 0x10, 0xF0, 0x80, 0xF0] ++
  [0xF0, 0x10, 0xF0, 0x10, 0xF0] ++ [0x90, 0x90, 0xF0, 0x10, 0x10] ++ [0xF0, 0x80, 0xF0, 0x10, 0xF0] ++
  [0xF0, 0x80, 0xF0, 0x90, 0xF0] ++ [0xF0, 0x10, 0x20, 0x40, 0x40] ++ [0xF0, 0x90, 0xF0, 0x90, 0xF0] ++
  [0xF0, 0x90, 0xF0, 0x10, 0xF0] ++ [0xF0, 0x90, 0xF0, 0x90, 0x90] ++ [0xE0, 0x90, 0xE0, 0x90, 0xE0] ++
  [0xF0, 0x80, 0x80, 0x80, 0xF0] ++ [0xE0, 0x90, 0x90, 0x90, 0xE0] ++ [0xF0, 0x80, 0xF0, 0x80, 0xF0] ++
  [0xF0, 0x80, 0xF0, 0x80, 0x80]

/-- The default `FONT` (R33). -/
def fontTable : FontTable := ⟨fontBytes.toArray, rfl⟩

/-- The reset contents of address `a` under the default `FONT`: the font at 0..79, zero above (R34). It is what an address
that memory does not list reads as, whatever `FONT` is: a reset with another font lists the bytes that differ
(`State.resetWith`). -/
def resetByte (a : Nat) : Byte := fontBytes.getD a 0

end Sys2Proof.Machine
end

