-- ==== Sys2Proof/Machine/Ops.lean ====
section
/-! DEFINITION. The named operations over memory, registers, stack, screen and timers, and the one way a command ends in
an error (`raise`). Every meaning is written over these. -/

namespace Sys2Proof.Machine

/-! ## Memory (20_memory.md) -/

/-- The byte of the first cell at address `a`. -/
def Memory.find (a : Nat) : List Host.Cell → Option Byte
  | [] => none
  | c :: cs => if c.1 = a then some c.2 else Memory.find a cs

/-- `MEM[a]` (R10): the listed byte, else the reset contents. The spec has no address from 4096 up; every reader checks
its span first (R52), so such an address is never read. -/
def Memory.read (m : Memory) (a : Nat) : Byte := (Memory.find a m.cells).getD (resetByte a)

/-- Put a cell where its address belongs among rising addresses, replacing the one there. -/
def Memory.put (a : Nat) (b : Byte) : List Host.Cell → List Host.Cell
  | [] => [(a, b)]
  | c :: cs => if a < c.1 then (a, b) :: c :: cs else if a = c.1 then (a, b) :: cs else c :: Memory.put a b cs

/-- Drop the cells at address `a`. -/
def Memory.drop (a : Nat) : List Host.Cell → List Host.Cell
  | [] => []
  | c :: cs => if c.1 = a then Memory.drop a cs else c :: Memory.drop a cs

/-- `MEM[a] <- b`, in canonical form: writing the reset contents removes the cell. -/
def Memory.write (m : Memory) (a : Nat) (b : Byte) : Memory :=
  if b = resetByte a then ⟨Memory.drop a m.cells⟩ else ⟨Memory.put a b m.cells⟩

/-- Addresses from `lo` on strictly rising and below 4096, no cell equal to its reset contents. -/
def Memory.wfFrom : Nat → List Host.Cell → Bool
  | _, [] => true
  | lo, c :: cs => decide (lo ≤ c.1) && decide (c.1 < Config.memSize) && (c.2 != resetByte c.1) && Memory.wfFrom (c.1 + 1) cs

/-- The canonical form: equal memories are equal lists. -/
def Memory.wf (m : Memory) : Bool := Memory.wfFrom 0 m.cells

/-- `MemRead(a, n)`: the bytes at `a .. a+n-1`, ascending (R52). -/
def Memory.readBytes (m : Memory) (a : Nat) : Nat → List Byte
  | 0 => []
  | n + 1 => m.read a :: Memory.readBytes m (a + 1) n

/-- `MemWrite(a, n, bytes)`: the bytes at `a, a+1, ..`, ascending (R53). -/
def Memory.writeBytes (m : Memory) (a : Nat) : List Byte → Memory
  | [] => m
  | b :: bs => Memory.writeBytes (m.write a b) (a + 1) bs

/-- The state right after `reset` of a machine whose parameter `FONT` is `f`: `State.reset` with `f` at 0..79 (00_scope.md
R7, 10_state.md R33, R34). With the default font it is `State.reset`. -/
def State.resetWith (f : FontTable) : State := { State.reset with mem := State.reset.mem.writeBytes 0 f.toList }

/-- The bytes `MEM[I] .. MEM[I+n-1]`. -/
def loadAtIndex (s : State) (n : Nat) : List Byte := s.mem.readBytes s.i.toNat n

/-- Store bytes at `I, I+1, ..`; `I` itself is not changed (R160, R165, decision D16). -/
def storeAtIndex (s : State) (bs : List Byte) : State := { s with mem := s.mem.writeBytes s.i.toNat bs }

/-! ## Errors (60_exceptions.md R200, R207) -/

/-- `raise E` (R10): the command ends with the error. There is no handler, no saved register and no mode change (R207);
what state is left behind is `stateLeftBy` of Machine/Commands.lean. -/
def raise (e : Fault) : Host.Outcome State Fault Refusal := .fault e

/-- Go on with `f` from a next state; a stop stays a stop, and nothing later runs (R100). -/
def thenUpdate (r : Host.Outcome State Fault Refusal) (f : State → State) : Host.Outcome State Fault Refusal :=
  match r with
  | .next t => .next (f t)
  | .fault e => .fault e
  | .refused q => .refused q

/-- The span check of R160: `if I + len > 4096: raise MemoryAccessError`, on integers, before anything else. -/
def withSpan (s : State) (len : Nat) (next : State) : Host.Outcome State Fault Refusal :=
  if s.i.toNat + len > Config.memSize then raise .memoryAccessError else .next next

/-! ## General registers (10_state.md R20, R21) -/

/-- `V[x]`. -/
def readV (s : State) (x : Reg) : Byte := s.v[x.val]

/-- `V[x] <- b`. No register is hardwired (R20). -/
def writeV (s : State) (x : Reg) (b : Byte) : State := { s with v := s.v.set x.val b }

/-- One random byte has been drawn (43_alu.md R153; the model's own counter, notes/assumptions/25.md). -/
def countDraw (s : State) : State := { s with draws := s.draws + 1 }

/-- `FLAG_REG`: `V[15]` (R6, R21). -/
def flagReg : Reg := 15

/-- The result to `V[x]` first, then the flag to `V[15]`: with `x = 15` the flag remains (R140, decision D8,
notes/assumptions/7.md). -/
def writeResultThenFlag (s : State) (x : Reg) (result flag : Byte) : State := writeV (writeV s x result) flagReg flag

/-- `V[0] .. V[x]`, ascending: the bytes StoreRegisters moves (R165). -/
def registersUpTo (s : State) (x : Reg) : List Byte := s.v.toList.take (x.val + 1)

/-- `V[k] <- MEM[I+k]` for `k = 0 .. x`: what LoadRegisters moves (R165, R167). -/
def loadRegistersUpTo (s : State) (x : Reg) : State :=
  { s with v := Vector.ofFn fun k => if k.val ≤ x.val then s.mem.read (s.i.toNat + k.val) else s.v[k.val] }

/-! ## Program counter (10_state.md R22, R23) -/

/-- Stage 4: `PC <- PC + 2` (40_step_cycle.md R105). -/
def advancePc (s : State) : State := { s with pc := s.pc + 2 }

/-- `PC <- t`. -/
def setPc (s : State) (t : Word) : State := { s with pc := t }

/-- Skip-next when `c` holds: a further `PC <- PC + 2` (42_skips.md R130, decision D20). -/
def skipNextIf (c : Bool) (s : State) : State := { s with pc := if c then s.pc + 2 else s.pc }

/-! ## Call stack (R25, R26, 20_memory.md R65) -/

/-- Push the (already advanced) `PC` and raise `SP`; the error of a full stack comes first (41_flow.md R123). -/
def pushPc (s : State) : Except Fault State :=
  if h : s.sp.val < Config.stackDepth then
    .ok { s with stack := s.stack.set s.sp.val s.pc, sp := ⟨s.sp.val + 1, Nat.succ_lt_succ h⟩ }
  else .error .callStackDepthExceeded

/-- Lower `SP` and load `PC` from the slot, which keeps its value; the error of an empty stack comes first (R121). -/
def popPc (s : State) : Except Fault State :=
  if h : 0 < s.sp.val then
    have hlt : s.sp.val - 1 < Config.stackDepth := by have := s.sp.isLt; omega
    .ok { s with sp := ⟨s.sp.val - 1, Nat.lt_succ_of_lt hlt⟩, pc := s.stack[s.sp.val - 1] }
  else .error .callStackEmpty

/-! ## Screen (R30, 20_memory.md R64) -/

/-- `SCREEN[r][c]`. -/
def getPixel (scr : Screen) (r : Fin Config.screenH) (c : Fin Config.screenW) : Bool := (scr[r.val])[c.val]

/-- `SCREEN[r][c] <- SCREEN[r][c] XOR 1`. -/
def flipPixel (scr : Screen) (r : Fin Config.screenH) (c : Fin Config.screenW) : Screen :=
  scr.set r.val ((scr[r.val]).set c.val (!(getPixel scr r c)))

/-- Every pixel 0 (45_display.md R170). -/
def blankScreen : Screen := Vector.replicate Config.screenH (Vector.replicate Config.screenW false)

/-- One 1 bit of a sprite: the pixel is flipped, and `hit` is set when it was set before (R172). -/
def drawPixel (acc : Screen × Bool) (p : Fin Config.screenH × Fin Config.screenW) : Screen × Bool :=
  (flipPixel acc.1 p.1 p.2, acc.2 || getPixel acc.1 p.1 p.2)

/-! ## Timers (40_step_cycle.md R107) -/

/-- One less, floored at 0. -/
def countDown (b : Byte) : Byte := if b = 0 then 0 else b - 1

/-- The divider `n` expires with this step: `CYCLE + 1 ≥ N` (R107). -/
def dividerExpires (n : Nat) (s : State) : Bool := decide (s.cycle + 1 ≥ n)

/-- Stage 6 for a divider `n`: count the step; when the divider expires, decrement both timers and start the count
again (R107). -/
def updateTimersWith (n : Nat) (s : State) : State :=
  { s with
    st := if dividerExpires n s then countDown s.st else s.st
    dt := if dividerExpires n s then countDown s.dt else s.dt
    cycle := if dividerExpires n s then 0 else s.cycle + 1 }

/-! ## Fetch (40_step_cycle.md R101, R102) -/

/-- Stage 1's condition: `PC + 1 ≥ 4096`, on integers (R101). -/
def pcOutOfBounds (s : State) : Bool := decide (s.pc.toNat + 1 ≥ Config.memSize)

/-- `op = MEM[PC] ++ MEM[PC+1]`, high byte first, from memory as it stands (R102, 20_memory.md R56, R63). -/
def fetchOpcode (s : State) : Word := opcodeOf (s.mem.read s.pc.toNat) (s.mem.read (s.pc.toNat + 1))

/-- Stage 3's test: WaitForKey with `KEYS = 0` (R104). -/
def blocks (i : Instr) (s : State) : Bool :=
  match i with
  | .waitForKey _ => s.keys == 0
  | _ => false

end Sys2Proof.Machine
end

