-- ==== Sys2Proof/Machine/Operands.lean ====
section
/-! DEFINITION. Every operand form of the instruction set: a register (`readV` of Ops), an immediate `kk` (used as it
stands, 30_encoding.md R72), an address `nnn` (zero-extended), `nnn + V[0]`, a key number, a held key, a sprite's pixels. -/

namespace Sys2Proof.Machine

/-- `zext_16(nnn)` (R72). -/
def zextAddr (nnn : Addr) : Word := nnn.zeroExtend 16

/-- JumpRelative's target `nnn + V[0]`, an integer 0..4350: never wrapped to 12 bits (41_flow.md R124). -/
def relativeTarget (s : State) (nnn : Addr) : Nat := nnn.toNat + (readV s 0).toNat

/-- SelectCharacter's address `V[x] * 5`, an integer 0..1275: no mask on the register value (44_index_memory.md R163,
decision D27). -/
def glyphAddress (s : State) (x : Reg) : Nat := (readV s x).toNat * Config.fontGlyphBytes

/-- Whether logical key `k` is held: bit `k` of `KEYS` (46_keys_timers.md R180). -/
def keyHeld (s : State) (k : Fin Config.numKeys) : Bool := s.keys.getLsbD k.val

/-- The key named by `V[x]`, or the error of a value above 15, which is not masked (R180). -/
def keyOperand (s : State) (x : Reg) : Except Fault (Fin Config.numKeys) :=
  if h : (readV s x).toNat < Config.numKeys then .ok ⟨(readV s x).toNat, h⟩ else .error (.invalidInputKey (readV s x))

/-- The lowest-numbered held key (46_keys_timers.md R183, decision D14, notes/assumptions/13.md). -/
def lowestHeldKey (s : State) : Option (Fin Config.numKeys) := (List.finRange Config.numKeys).find? (keyHeld s)

/-- Where pixel `b` of sprite row `r` lands: both axes wrap, pixel by pixel (45_display.md R171). -/
def pixelAt (bx byy : Byte) (r b : Nat) : Fin Config.screenH × Fin Config.screenW :=
  (⟨(byy.toNat + r) % Config.screenH, Nat.mod_lt _ (by decide)⟩, ⟨(bx.toNat + b) % Config.screenW, Nat.mod_lt _ (by decide)⟩)

/-- Bit `7 - b` of a sprite byte: pixel `b` from the left edge, bit 7 leftmost (R171, decision D11,
notes/assumptions/10.md). -/
def spriteBit (row : Byte) (b : Nat) : Bool := row.getLsbD (7 - b)

/-- The pixels under the 1 bits of one sprite row, left to right. -/
def rowPixels (bx byy : Byte) (r : Nat) (row : Byte) : List (Fin Config.screenH × Fin Config.screenW) :=
  ((List.range 8).filter (spriteBit row)).map (pixelAt bx byy r)

/-- The pixels under the 1 bits of a sprite whose rows from `r` on are `rows`, in the order of R172's loops. -/
def spritePixels (bx byy : Byte) : Nat → List Byte → List (Fin Config.screenH × Fin Config.screenW)
  | _, [] => []
  | r, row :: rows => rowPixels bx byy r row ++ spritePixels bx byy (r + 1) rows

end Sys2Proof.Machine
end

