-- ==== Sys2Proof/Machine/Flags.lean ====
section
/-! DEFINITION. Every flag computation the spec gives: the value written to `V[15]` (10_state.md R21, 43_alu.md R152).
A flag is always exactly 0 or 1. -/

namespace Sys2Proof.Machine

/-- 1 or 0. -/
def flagByte (c : Bool) : Byte := if c then 1 else 0

/-- AddRegister: 1 on carry out of the 8-bit sum, 0 otherwise (R147). -/
def carryFlag (a b : Byte) : Byte := flagByte (decide (a.toNat + b.toNat > 255))

/-- AddValue: 1 when the sum did NOT carry, 0 when it carried (R142, decision D9, notes/assumptions/8.md). -/
def noCarryFlag (a b : Byte) : Byte := flagByte (decide (a.toNat + b.toNat ≤ 255))

/-- A subtraction `a - b`: 1 when no borrow occurred, `a ≥ b`, 0 otherwise (R148, R150). -/
def noBorrowFlag (a b : Byte) : Byte := flagByte (decide (a.toNat ≥ b.toNat))

/-- ShiftRight: the bit shifted out, bit 0 (R149). -/
def lowBitFlag (a : Byte) : Byte := flagByte (a.getLsbD 0)

/-- ShiftLeft: the bit shifted out, bit 7 (R151). -/
def highBitFlag (a : Byte) : Byte := flagByte (a.getLsbD 7)

/-- Draw: 1 when some pixel went from set to unset, else 0 (45_display.md R172, decision D13, notes/assumptions/12.md). -/
def collisionFlag (hit : Bool) : Byte := flagByte hit

end Sys2Proof.Machine
end

