-- ==== Sys2Proof/Machine/Alu.lean ====
section
/-! DEFINITION. Register load, arithmetic, logic, shift and random (43_alu.md). Operands are read before anything is
written; a flag writer writes the result first and the flag second (R140). -/

namespace Sys2Proof.Machine

/-- LoadValue (R141). -/
def execLoadValue (x : Reg) (kk : Byte) (s : State) : Host.Outcome State Fault Refusal := .next (writeV s x kk)

/-- AddValue (R142): the flag has inverted polarity. -/
def execAddValue (x : Reg) (kk : Byte) (s : State) : Host.Outcome State Fault Refusal :=
  .next (writeResultThenFlag s x (readV s x + kk) (noCarryFlag (readV s x) kk))

/-- Copy (R143). -/
def execCopy (x y : Reg) (s : State) : Host.Outcome State Fault Refusal := .next (writeV s x (readV s y))

/-- Or (R144): `V[15]` is left as it was (decision D10, notes/assumptions/9.md). -/
def execOr (x y : Reg) (s : State) : Host.Outcome State Fault Refusal := .next (writeV s x (readV s x ||| readV s y))

/-- And (R145). -/
def execAnd (x y : Reg) (s : State) : Host.Outcome State Fault Refusal := .next (writeV s x (readV s x &&& readV s y))

/-- Xor (R146). -/
def execXor (x y : Reg) (s : State) : Host.Outcome State Fault Refusal := .next (writeV s x (readV s x ^^^ readV s y))

/-- AddRegister (R147): no carry in. -/
def execAddRegister (x y : Reg) (s : State) : Host.Outcome State Fault Refusal :=
  .next (writeResultThenFlag s x (readV s x + readV s y) (carryFlag (readV s x) (readV s y)))

/-- SubtractVxVy (R148): `V[x] - V[y]`. -/
def execSubtractVxVy (x y : Reg) (s : State) : Host.Outcome State Fault Refusal :=
  .next (writeResultThenFlag s x (readV s x - readV s y) (noBorrowFlag (readV s x) (readV s y)))

/-- ShiftRight (R149): `V[x]` in place; `y` is carried and not used (decision D7, notes/assumptions/6.md). -/
def execShiftRight (x _y : Reg) (s : State) : Host.Outcome State Fault Refusal :=
  .next (writeResultThenFlag s x (readV s x >>> 1) (lowBitFlag (readV s x)))

/-- SubtractVyVx (R150): `V[y] - V[x]`, to `V[x]`. -/
def execSubtractVyVx (x y : Reg) (s : State) : Host.Outcome State Fault Refusal :=
  .next (writeResultThenFlag s x (readV s y - readV s x) (noBorrowFlag (readV s y) (readV s x)))

/-- ShiftLeft (R151): `V[x]` in place; `y` is carried and not used (decision D7, notes/assumptions/6.md). -/
def execShiftLeft (x _y : Reg) (s : State) : Host.Outcome State Fault Refusal :=
  .next (writeResultThenFlag s x (readV s x <<< 1) (highBitFlag (readV s x)))

/-- Random (R153): `V[x] <- rnd AND kk`; the byte is the free value of this draw (notes/assumptions/25.md). -/
def execRandom (x : Reg) (kk : Byte) (s : State) : Host.Outcome State Fault Refusal :=
  .next (writeV (countDraw s) x (Config.randomByte s.draws &&& kk))

end Sys2Proof.Machine
end

