-- ==== Sys2Proof/Machine/Display.lean ====
section
/-! DEFINITION. Display (45_display.md). -/

namespace Sys2Proof.Machine

/-- ClearScreen (R170): `V[15]` is not written. -/
def execClearScreen (s : State) : Host.Outcome State Fault Refusal := .next { s with screen := blankScreen }

/-- The screen and the collision after the sprite `rows` is drawn with `V[x] = bx`, `V[y] = byy` (R171, R172). -/
def drawSprite (scr : Screen) (bx byy : Byte) (rows : List Byte) : Screen × Bool :=
  (spritePixels bx byy 0 rows).foldl drawPixel (scr, false)

/-- Draw (R172): coordinates are read before `V[15]` is written; the span check precedes every pixel. -/
def execDraw (x y : Reg) (n : SpriteLen) (s : State) : Host.Outcome State Fault Refusal :=
  let drawn := drawSprite s.screen (readV s x) (readV s y) (loadAtIndex s n.val)
  withSpan s n.val (writeV { s with screen := drawn.1 } flagReg (collisionFlag drawn.2))

end Sys2Proof.Machine
end

