-- ==== Sys2Proof/Machine/Flow.lean ====
section
/-! DEFINITION. Control transfer (41_flow.md). Each meaning is the effect of stage 5: `PC` has already been advanced. -/

namespace Sys2Proof.Machine

/-- Nop (R120): nothing. -/
def execNop (s : State) : Host.Outcome State Fault Refusal := .next s

/-- Return (R121). -/
def execRet (s : State) : Host.Outcome State Fault Refusal :=
  match popPc s with
  | .ok t => .next t
  | .error e => raise e

/-- Jump (R122): the target is not checked. -/
def execJump (nnn : Addr) (s : State) : Host.Outcome State Fault Refusal := .next (setPc s (zextAddr nnn))

/-- Call (R123): pushes the advanced `PC`; the target is not checked. -/
def execCall (nnn : Addr) (s : State) : Host.Outcome State Fault Refusal :=
  match pushPc s with
  | .ok t => .next (setPc t (zextAddr nnn))
  | .error e => raise e

/-- JumpRelative (R124): fails when the target is no memory address (decision D17, notes/assumptions/16.md). -/
def execJumpRelative (nnn : Addr) (s : State) : Host.Outcome State Fault Refusal :=
  if relativeTarget s nnn ≥ Config.memSize then raise .memoryAccessError
  else .next (setPc s (BitVec.ofNat 16 (relativeTarget s nnn)))

end Sys2Proof.Machine
end

