-- ==== Sys2Proof/Machine/IndexMemory.lean ====
section
/-! DEFINITION. Index register and memory (44_index_memory.md). The span check precedes every access (R160); no access
changes `I` (R165, decision D16, notes/assumptions/15.md). -/

namespace Sys2Proof.Machine

/-- SetIndex (R161). -/
def execSetIndex (nnn : Addr) (s : State) : Host.Outcome State Fault Refusal := .next { s with i := zextAddr nnn }

/-- AddToIndex (R162): wraps modulo 65536 (decision D15, notes/assumptions/14.md); `V[15]` is not written. -/
def execAddToIndex (x : Reg) (s : State) : Host.Outcome State Fault Refusal :=
  .next { s with i := s.i + (readV s x).zeroExtend 16 }

/-- SelectCharacter (R163): the check is R163's own and can never fail, since `255 * 5 + 5 ≤ 4096`. -/
def execSelectCharacter (x : Reg) (s : State) : Host.Outcome State Fault Refusal :=
  if glyphAddress s x + Config.fontGlyphBytes > Config.memSize then raise .memoryAccessError
  else .next { s with i := BitVec.ofNat 16 (glyphAddress s x) }

/-- The three decimal digits of a byte: hundreds, tens, ones (R164). -/
def bcdDigits (v : Byte) : List Byte := [v / 100, v / 10 % 10, v % 10]

/-- StoreBcd (R164). -/
def execStoreBcd (x : Reg) (s : State) : Host.Outcome State Fault Refusal :=
  withSpan s 3 (storeAtIndex s (bcdDigits (readV s x)))

/-- StoreRegisters (R166): `V[0] .. V[x]` inclusive, ascending. -/
def execStoreRegisters (x : Reg) (s : State) : Host.Outcome State Fault Refusal :=
  withSpan s (x.val + 1) (storeAtIndex s (registersUpTo s x))

/-- LoadRegisters (R167): `V[0] .. V[x]` inclusive; `V[15]` is loaded as data. -/
def execLoadRegisters (x : Reg) (s : State) : Host.Outcome State Fault Refusal :=
  withSpan s (x.val + 1) (loadRegistersUpTo s x)

end Sys2Proof.Machine
end

