-- ==== Sys2Proof/Machine/KeysTimers.lean ====
section
/-! DEFINITION. Keypad and timers (46_keys_timers.md). -/

namespace Sys2Proof.Machine

/-- SkipIfKeyPressed (R181): a register value above 15 is an error. -/
def execSkipIfKeyPressed (x : Reg) (s : State) : Host.Outcome State Fault Refusal :=
  match keyOperand s x with
  | .ok k => .next (skipNextIf (keyHeld s k) s)
  | .error e => raise e

/-- SkipIfKeyNotPressed (R182): the range check comes first. -/
def execSkipIfKeyNotPressed (x : Reg) (s : State) : Host.Outcome State Fault Refusal :=
  match keyOperand s x with
  | .ok k => .next (skipNextIf (!(keyHeld s k)) s)
  | .error e => raise e

/-- WaitForKey (R183), run only with a key held: a step with `KEYS = 0` ends as blocked before it (R104). -/
def execWaitForKey (x : Reg) (s : State) : Host.Outcome State Fault Refusal :=
  match lowestHeldKey s with
  | some k => .next (writeV s x (BitVec.ofNat 8 k.val))
  | none => raise .expectingInputKey

/-- ReadDelayTimer (R184). -/
def execReadDelayTimer (x : Reg) (s : State) : Host.Outcome State Fault Refusal := .next (writeV s x s.dt)

/-- SetDelayTimer (R185): `CYCLE` is not reset. -/
def execSetDelayTimer (x : Reg) (s : State) : Host.Outcome State Fault Refusal := .next { s with dt := readV s x }

/-- SetSoundTimer (R186). -/
def execSetSoundTimer (x : Reg) (s : State) : Host.Outcome State Fault Refusal := .next { s with st := readV s x }

end Sys2Proof.Machine
end

