-- ==== Sys2Proof/Machine/Skips.lean ====
section
/-! DEFINITION. The conditional skips on registers (42_skips.md). -/

namespace Sys2Proof.Machine

/-- SkipIfEqualValue (R131). -/
def execSkipIfEqualValue (x : Reg) (kk : Byte) (s : State) : Host.Outcome State Fault Refusal :=
  .next (skipNextIf (readV s x == kk) s)

/-- SkipIfNotEqualValue (R132). -/
def execSkipIfNotEqualValue (x : Reg) (kk : Byte) (s : State) : Host.Outcome State Fault Refusal :=
  .next (skipNextIf (readV s x != kk) s)

/-- SkipIfEqualRegister (R133). -/
def execSkipIfEqualRegister (x y : Reg) (s : State) : Host.Outcome State Fault Refusal :=
  .next (skipNextIf (readV s x == readV s y) s)

/-- SkipIfNotEqualRegister (R134). -/
def execSkipIfNotEqualRegister (x y : Reg) (s : State) : Host.Outcome State Fault Refusal :=
  .next (skipNextIf (readV s x != readV s y) s)

end Sys2Proof.Machine
end

