-- ==== Sys2Proof/Machine/Dispatch.lean ====
section
/-! DEFINITION. The dispatch of stage 5 (40_step_cycle.md R106): one arm for each variant. -/

namespace Sys2Proof.Machine

def exec (i : Instr) (s : State) : Host.Outcome State Fault Refusal :=
  match i with
  | .nop => Sys2Proof.Machine.execNop s
  | .clearScreen => Sys2Proof.Machine.execClearScreen s
  | .ret => Sys2Proof.Machine.execRet s
  | .jump nnn => Sys2Proof.Machine.execJump nnn s
  | .call nnn => Sys2Proof.Machine.execCall nnn s
  | .skipIfEqualValue x kk => Sys2Proof.Machine.execSkipIfEqualValue x kk s
  | .skipIfNotEqualValue x kk => Sys2Proof.Machine.execSkipIfNotEqualValue x kk s
  | .skipIfEqualRegister x y => Sys2Proof.Machine.execSkipIfEqualRegister x y s
  | .loadValue x kk => Sys2Proof.Machine.execLoadValue x kk s
  | .addValue x kk => Sys2Proof.Machine.execAddValue x kk s
  | .copy x y => Sys2Proof.Machine.execCopy x y s
  | .or x y => Sys2Proof.Machine.execOr x y s
  | .and x y => Sys2Proof.Machine.execAnd x y s
  | .xor x y => Sys2Proof.Machine.execXor x y s
  | .addRegister x y => Sys2Proof.Machine.execAddRegister x y s
  | .subtractVxVy x y => Sys2Proof.Machine.execSubtractVxVy x y s
  | .shiftRight x y => Sys2Proof.Machine.execShiftRight x y s
  | .subtractVyVx x y => Sys2Proof.Machine.execSubtractVyVx x y s
  | .shiftLeft x y => Sys2Proof.Machine.execShiftLeft x y s
  | .skipIfNotEqualRegister x y => Sys2Proof.Machine.execSkipIfNotEqualRegister x y s
  | .setIndex nnn => Sys2Proof.Machine.execSetIndex nnn s
  | .jumpRelative nnn => Sys2Proof.Machine.execJumpRelative nnn s
  | .random x kk => Sys2Proof.Machine.execRandom x kk s
  | .draw x y n => Sys2Proof.Machine.execDraw x y n s
  | .skipIfKeyPressed x => Sys2Proof.Machine.execSkipIfKeyPressed x s
  | .skipIfKeyNotPressed x => Sys2Proof.Machine.execSkipIfKeyNotPressed x s
  | .readDelayTimer x => Sys2Proof.Machine.execReadDelayTimer x s
  | .waitForKey x => Sys2Proof.Machine.execWaitForKey x s
  | .setDelayTimer x => Sys2Proof.Machine.execSetDelayTimer x s
  | .setSoundTimer x => Sys2Proof.Machine.execSetSoundTimer x s
  | .addToIndex x => Sys2Proof.Machine.execAddToIndex x s
  | .selectCharacter x => Sys2Proof.Machine.execSelectCharacter x s
  | .storeBcd x => Sys2Proof.Machine.execStoreBcd x s
  | .storeRegisters x => Sys2Proof.Machine.execStoreRegisters x s
  | .loadRegisters x => Sys2Proof.Machine.execLoadRegisters x s

end Sys2Proof.Machine
end

