-- ==== Sys2Proof/Machine/Cycle.lean ====
section
/-! DEFINITION. The step cycle (40_step_cycle.md R100 to R110): bounds check, fetch and decode, the blocking test, the
advance, the effect, the timers. -/

namespace Sys2Proof.Machine

/-- The error kind a decoding failure is reported as (R103). The step hands the decoder a whole word, so `truncated`
never arises; it is reported as the opcode 0. -/
def faultOfDecode : DecodeError → Fault
  | .invalidInstruction op => .invalidInstruction op
  | .truncated => .invalidInstruction 0

/-- One step of a machine whose `TIMER_DIVIDER` is `n` (R108). -/
def stepWith (n : Nat) (s : State) : Host.Outcome State Fault Refusal :=
  if pcOutOfBounds s then raise (.programCounterOutOfBounds s.pc)
  else
    match decodeWord (fetchOpcode s) with
    | .error e => raise (faultOfDecode e)
    | .ok i => if blocks i s then .next s else thenUpdate (exec i (advancePc s)) (updateTimersWith n)

/-- `s` with two bytes stored where the next step fetches (R102). With `PC ≥ 4095` no step fetches (R101), and nothing is
changed (notes/assumptions/27.md). -/
def placeAtPc (s : State) (bytes : List Byte) : State :=
  if pcOutOfBounds s then s else { s with mem := s.mem.writeBytes s.pc.toNat bytes }

end Sys2Proof.Machine
end

