-- ==== Sys2Proof/Machine/Step.lean ====
section
/-! DEFINITION. The step, and the host's way to place the next instruction. It only calls the operations of the other
files. -/

namespace Sys2Proof.Machine

/-- One step of the machine (40_step_cycle.md R108): `TIMER_DIVIDER` is the open parameter (R7, R107). -/
def step (s : State) : Host.Outcome State Fault Refusal := stepWith Config.timerDivider s

/-- `s` with the opcode whose table word is `w` stored at `PC`, `PC + 1`, where the next step fetches (R102); bits from
`nbits` up are 0 (notes/assumptions/27.md). -/
def State.withFetchWord (s : State) (nbits w : Nat) : State :=
  placeAtPc s (wordBytes (BitVec.ofNat 16 (w % 2 ^ nbits)))

end Sys2Proof.Machine
end

