-- ==== Sys2Proof/Machine/Commands.lean ====
section
/-! DEFINITION. The host's side of the block (70_reset_and_hazards.md R235): the seven commands, each an atomic
transition (00_scope.md R5), with what each returns and the state each leaves, also after an error (40_step_cycle.md
R109). -/

namespace Sys2Proof.Machine

/-- What `current_state()` shows: the ten fields of the source's MachineState (10_state.md R36). `CYCLE` is not shown
(R31, decision D3), nor is the model's own `draws`. -/
structure View where
  registers : Vector Byte Config.numRegs
  stack : Vector Word Config.stackDepth
  stackPointer : Fin (Config.stackDepth + 1)
  memory : Memory
  screen : Screen
  inputKeys : Word
  indexRegister : Word
  soundTimer : Byte
  delayTimer : Byte
  programCounter : Word
  deriving DecidableEq, Repr

/-- The commands (R235). `bitmask` is any number; its bits 15..0 are taken (R213). -/
inductive Command where
  | reset
  | load (rom : List Byte)
  | step
  | setInputKeys (bitmask : Nat)
  | isSoundActive
  | currentState
  | peekInstruction (address : Nat)
  deriving DecidableEq, Repr

/-- What a command returns (00_scope.md R11, 70_reset_and_hazards.md R235). The source reports `blocked` as success. -/
inductive Response where
  | ok
  | blocked
  | error (e : Fault)
  | sound (active : Bool)
  | view (w : View)
  | instruction (i : Instr)
  /-- Only for an instruction with no meaning; no step answers it now. -/
  | refused (q : Refusal)
  deriving DecidableEq, Repr

/-- `reset()` of a machine whose `FONT` is `f`, which it re-seeds (R230, R231, 10_state.md R33). The model's own draw counter runs on, so a machine that is reset does not draw the same bytes
again (notes/assumptions/25.md). -/
def resetCommandWith (f : FontTable) (s : State) : State := { State.resetWith f with draws := s.draws }

/-- `load(rom)` (R233): bytes to 0x200 on, nothing else; a ROM of more than 3584 bytes is an error and changes nothing
(60_exceptions.md R201). -/
def loadRom (rom : List Byte) (s : State) : Except Fault State :=
  if rom.length > Config.maxRomLen then .error .romTooLarge
  else .ok { s with mem := s.mem.writeBytes Config.programBase rom }

/-- `set_input_keys(bitmask)`: `KEYS <- bitmask[15:0]` (60_exceptions.md R213). -/
def setInputKeys (bitmask : Nat) (s : State) : State := { s with keys := BitVec.ofNat 16 bitmask }

/-- `is_sound_active()`: `ST > 1`, the source's literal (60_exceptions.md R214, notes/assumptions/31.md). -/
def isSoundActive (s : State) : Bool := decide (s.st.toNat > 1)

/-- `current_state()` (10_state.md R36). -/
def currentState (s : State) : View where
  registers := s.v
  stack := s.stack
  stackPointer := s.sp
  memory := s.mem
  screen := s.screen
  inputKeys := s.keys
  indexRegister := s.i
  soundTimer := s.st
  delayTimer := s.dt
  programCounter := s.pc

/-- `peek_instruction(a)`: fails from 4094 on, one slot before the fetch does (60_exceptions.md R217, 90_conflicts.md C7,
notes/assumptions/31.md). -/
def peekInstruction (a : Nat) (s : State) : Except Fault Instr :=
  if a ≥ Config.memSize - 2 then .error .memoryAccessError
  else
    match decodeWord (opcodeOf (s.mem.read a) (s.mem.read (a + 1))) with
    | .ok i => .ok i
    | .error e => .error (faultOfDecode e)

/-- The state a failed step leaves (R106, R109, 60_exceptions.md R200): unchanged for the errors of stages 1 and 2, `PC`
advanced by 2 and nothing else for the errors of stage 5. -/
def stateLeftBy (e : Fault) (s : State) : State :=
  match e with
  | .romTooLarge => s
  | .invalidInstruction _ => s
  | .programCounterOutOfBounds _ => s
  | .callStackDepthExceeded => advancePc s
  | .callStackEmpty => advancePc s
  | .memoryAccessError => advancePc s
  | .invalidInputKey _ => advancePc s
  | .expectingInputKey => advancePc s

/-- Whether the next step would end as blocked: stages 1 and 2 pass and stage 3 stops it (R104). -/
def stepBlocks (s : State) : Bool :=
  !(pcOutOfBounds s) &&
    match decodeWord (fetchOpcode s) with
    | .ok i => blocks i s
    | .error _ => false

/-- The `step` command with its answer and the state it leaves (R100, R109). -/
def stepCommand (s : State) : State × Response :=
  match step s with
  | .next t => (t, if stepBlocks s then .blocked else .ok)
  | .fault e => (stateLeftBy e s, .error e)
  | .refused q => (s, .refused q)

/-- One command of the host to a machine whose `FONT` is `f` (R235). Only `reset()` depends on the font. -/
def runCommandWith (f : FontTable) (c : Command) (s : State) : State × Response :=
  match c with
  | .reset => (resetCommandWith f s, .ok)
  | .load rom =>
    match loadRom rom s with
    | .ok t => (t, .ok)
    | .error e => (s, .error e)
  | .step => stepCommand s
  | .setInputKeys bitmask => (setInputKeys bitmask s, .ok)
  | .isSoundActive => (s, .sound (isSoundActive s))
  | .currentState => (s, .view (currentState s))
  | .peekInstruction a =>
    match peekInstruction a s with
    | .ok i => (s, .instruction i)
    | .error e => (s, .error e)

/-- One command to a machine with the default `FONT`. -/
def runCommand (c : Command) (s : State) : State × Response := runCommandWith fontTable c s

end Sys2Proof.Machine
end

