-- ==== Sys2Proof/Safety.lean ====
section
/-! DEFINITION. What counts as a state the machine can be in and as a safe run, in the terms the statements use. -/

namespace Sys2Proof.Machine

/-- What every reachable state satisfies: memory in canonical form; `PC ≤ 4098`, so the 16-bit register never wraps
(10_state.md R23); every pushed return address at most 4096 (R23, 41_flow.md R121); `CYCLE` below the divider
(40_step_cycle.md R107). -/
structure Inv (s : State) : Prop where
  memory : s.mem.wf = true
  pc : s.pc.toNat ≤ 4098
  stack : ∀ k : Fin Config.stackDepth, k.val < s.sp.val → (s.stack[k.val]).toNat ≤ 4096
  cycle : s.cycle < Config.timerDivider

/-- A step that returns no error (00_scope.md R11). -/
def SafeStep (s : State) : Prop := ∃ t, step s = .next t

/-- The next step completes and leaves `PC` `d` bytes on (42_skips.md R130). -/
def StepMovesPcBy (d : Nat) (s : State) : Prop := ∃ t, step s = .next t ∧ t.pc.toNat = s.pc.toNat + d

/-- A run of `k` steps with no error: an error is the end of the run (60_exceptions.md R207, 70_reset_and_hazards.md
R242). -/
def SafeFor : Nat → State → Prop
  | 0, _ => True
  | k + 1, s => ∃ t, step s = .next t ∧ SafeFor k t

/-- Stages 1 and 2 pass and the opcode fetched is `op`: `PC + 1 < 4096` and `op = MEM[PC] * 256 + MEM[PC+1]`
(40_step_cycle.md R101, R102, 20_memory.md R56). -/
def Fetches (s : State) (op : Word) : Prop :=
  s.pc.toNat + 1 < 4096 ∧ op.toNat = (s.mem.read s.pc.toNat).toNat * 256 + (s.mem.read (s.pc.toNat + 1)).toNat

/-! ## Frames: what an instruction leaves unchanged, between a state `s` and a later state `t` -/

/-- Every general register outside `d` is unchanged. -/
def KeepsRegistersBut (d : List Reg) (s t : State) : Prop := ∀ r : Reg, r ∉ d → readV t r = readV s r

/-- Every byte of memory reads as before. -/
def KeepsMemory (s t : State) : Prop := ∀ a : Nat, t.mem.read a = s.mem.read a

/-- Every pixel is unchanged. -/
def KeepsScreen (s t : State) : Prop := ∀ r c, getPixel t.screen r c = getPixel s.screen r c

/-- The call stack, every slot of it, and `SP` are unchanged. -/
def KeepsStack (s t : State) : Prop := t.sp = s.sp ∧ ∀ k : Fin Config.stackDepth, t.stack[k.val] = s.stack[k.val]

/-- `DT` and `ST` are unchanged. -/
def KeepsTimers (s t : State) : Prop := t.dt = s.dt ∧ t.st = s.st

/-- `KEYS`, `CYCLE` and the model's draw counter are unchanged. -/
def KeepsHidden (s t : State) : Prop := t.keys = s.keys ∧ t.cycle = s.cycle ∧ t.draws = s.draws

/-- Everything but `PC` and the registers in `d` is unchanged: the frame of a register-only instruction. -/
def RegisterFrame (d : List Reg) (s t : State) : Prop :=
  KeepsRegistersBut d s t ∧ KeepsMemory s t ∧ KeepsScreen s t ∧ KeepsStack s t ∧ KeepsTimers s t ∧ KeepsHidden s t ∧
    t.i = s.i

/-- Pixel `(r, c)` lies under a 1 bit of the sprite that Draw `x y n` takes from `MEM[I..]` (45_display.md R171). -/
def UnderSprite (s : State) (x y : Reg) (n : SpriteLen) (r : Fin Config.screenH) (c : Fin Config.screenW) : Prop :=
  ∃ k b : Nat, k < n.val ∧ b < 8 ∧ (s.mem.read (s.i.toNat + k)).toNat.testBit (7 - b) = true ∧
    r.val = ((readV s y).toNat + k) % 32 ∧ c.val = ((readV s x).toNat + b) % 64

end Sys2Proof.Machine
end

