-- ==== Sys2Proof/Certificates/Slice0/Obligations.lean ====
section
/-! DEFINITION. The statements for the provers. Each docstring names the rule of spec/ it formalises; where a clause rests
on a choice the spec marks as its own decision (D<n> of 92_eei_decisions.md) or on a choice of the model's, it says so and
names the log entry. -/

open Sys2Proof Sys2Proof.Machine

/-! ## The decoder and the encoder (30_encoding.md) -/

/-- Sanity: words of 95_test_vectors.md section 2.1 decode to the instructions they stand for. The class-F bytes rest on
D4 (log 3), the class-8 pairing on D5 (log 4), `512F` on D6 (log 5). -/
def Obligations.SampleOpcodesDecode : Prop :=
  decodeWord 0x0123 = .ok .nop ∧ decodeWord 0x00E0 = .ok .clearScreen ∧ decodeWord 0x00EE = .ok .ret ∧
  decodeWord 0x1ABC = .ok (.jump 0xABC) ∧ decodeWord 0x3A42 = .ok (.skipIfEqualValue 10 0x42) ∧
  decodeWord 0x512F = .ok (.skipIfEqualRegister 1 2) ∧ decodeWord 0x8127 = .ok (.subtractVyVx 1 2) ∧
  decodeWord 0xD125 = .ok (.draw 1 2 5) ∧ decodeWord 0xE1A1 = .ok (.skipIfKeyNotPressed 1) ∧
  decodeWord 0xFF65 = .ok (.loadRegisters 15) ∧ decodeWord 0x8128 = .error (.invalidInstruction 0x8128) ∧
  decodeWord 0xE09D = .error (.invalidInstruction 0xE09D)

/-- R76, R77, R78, R80, R82, R83, R84, R85: every opcode of classes 0 to 4, 6, 7 and A to E, written as
`class * 4096 + x * 256 + ..`. Class 0 is matched on the whole word and never fails; class E fails on any low byte but
9E and A1, with the opcode in the error. -/
def Obligations.PlainClassesDecode : Prop :=
  (∀ nnn : Addr, decodeWord (BitVec.ofNat 16 nnn.toNat) =
    .ok (if nnn.toNat = 0x0E0 then .clearScreen else if nnn.toNat = 0x0EE then .ret else .nop)) ∧
  (∀ nnn : Addr,
    decodeWord (BitVec.ofNat 16 (0x1000 + nnn.toNat)) = .ok (.jump nnn) ∧
    decodeWord (BitVec.ofNat 16 (0x2000 + nnn.toNat)) = .ok (.call nnn) ∧
    decodeWord (BitVec.ofNat 16 (0xA000 + nnn.toNat)) = .ok (.setIndex nnn) ∧
    decodeWord (BitVec.ofNat 16 (0xB000 + nnn.toNat)) = .ok (.jumpRelative nnn)) ∧
  (∀ (x : Reg) (kk : Byte),
    decodeWord (BitVec.ofNat 16 (0x3000 + x.val * 256 + kk.toNat)) = .ok (.skipIfEqualValue x kk) ∧
    decodeWord (BitVec.ofNat 16 (0x4000 + x.val * 256 + kk.toNat)) = .ok (.skipIfNotEqualValue x kk) ∧
    decodeWord (BitVec.ofNat 16 (0x6000 + x.val * 256 + kk.toNat)) = .ok (.loadValue x kk) ∧
    decodeWord (BitVec.ofNat 16 (0x7000 + x.val * 256 + kk.toNat)) = .ok (.addValue x kk) ∧
    decodeWord (BitVec.ofNat 16 (0xC000 + x.val * 256 + kk.toNat)) = .ok (.random x kk) ∧
    decodeWord (BitVec.ofNat 16 (0xE000 + x.val * 256 + kk.toNat)) =
      (if kk.toNat = 0x9E then .ok (.skipIfKeyPressed x) else if kk.toNat = 0xA1 then .ok (.skipIfKeyNotPressed x)
        else .error (.invalidInstruction (BitVec.ofNat 16 (0xE000 + x.val * 256 + kk.toNat))))) ∧
  (∀ (x y : Reg) (n : SpriteLen),
    decodeWord (BitVec.ofNat 16 (0xD000 + x.val * 256 + y.val * 16 + n.val)) = .ok (.draw x y n))

/-- R79, R81, R86 as decided by the spec: the low nibble of classes 5 and 9 is ignored (D6, log 5), the nine low nibbles
of class 8 are paired in order with the nine operations (D5, log 4), the nine low bytes of class F are the conventional
ones (D4, log 3); every other opcode of classes 8 and F is invalid and carried in the error. -/
def Obligations.DecidedClassesDecode : Prop :=
  (∀ (x y : Reg) (n : Fin 16),
    decodeWord (BitVec.ofNat 16 (0x5000 + x.val * 256 + y.val * 16 + n.val)) = .ok (.skipIfEqualRegister x y) ∧
    decodeWord (BitVec.ofNat 16 (0x9000 + x.val * 256 + y.val * 16 + n.val)) = .ok (.skipIfNotEqualRegister x y) ∧
    decodeWord (BitVec.ofNat 16 (0x8000 + x.val * 256 + y.val * 16 + n.val)) =
      (match n.val with
        | 0 => .ok (.copy x y)
        | 1 => .ok (.or x y)
        | 2 => .ok (.and x y)
        | 3 => .ok (.xor x y)
        | 4 => .ok (.addRegister x y)
        | 5 => .ok (.subtractVxVy x y)
        | 6 => .ok (.shiftRight x y)
        | 7 => .ok (.subtractVyVx x y)
        | 14 => .ok (.shiftLeft x y)
        | _ => .error (.invalidInstruction (BitVec.ofNat 16 (0x8000 + x.val * 256 + y.val * 16 + n.val))))) ∧
  (∀ (x : Reg) (kk : Byte),
    decodeWord (BitVec.ofNat 16 (0xF000 + x.val * 256 + kk.toNat)) =
      (match kk.toNat with
        | 0x07 => .ok (.readDelayTimer x)
        | 0x0A => .ok (.waitForKey x)
        | 0x15 => .ok (.setDelayTimer x)
        | 0x18 => .ok (.setSoundTimer x)
        | 0x1E => .ok (.addToIndex x)
        | 0x29 => .ok (.selectCharacter x)
        | 0x33 => .ok (.storeBcd x)
        | 0x55 => .ok (.storeRegisters x)
        | 0x65 => .ok (.loadRegisters x)
        | _ => .error (.invalidInstruction (BitVec.ofNat 16 (0xF000 + x.val * 256 + kk.toNat)))))

/-- R87 (marked derived by the spec): the illegal opcodes are exactly those of class 8 with low nibble 8..D or F, of
class E with another low byte than 9E, A1, and of class F with another low byte than the nine; the error carries the
opcode. The nine bytes are decision D4 (log 3) and the class-8 pairing is D5 (log 4); that NO class-5 opcode is illegal,
`5xy1` to `5xyF` among them, is decision D6 (log 5), a choice and unsafe (for class 9 the source says it). -/
def Obligations.IllegalOpcodesAreExactlyThese : Prop :=
  ∀ op : Word,
    (∀ e, decodeWord op = .error e → e = .invalidInstruction op) ∧
    ((∃ e, decodeWord op = .error e) ↔
      (op.toNat / 4096 = 0x8 ∧ 8 ≤ op.toNat % 16 ∧ op.toNat % 16 ≠ 0xE) ∨
      (op.toNat / 4096 = 0xE ∧ op.toNat % 256 ≠ 0x9E ∧ op.toNat % 256 ≠ 0xA1) ∨
      (op.toNat / 4096 = 0xF ∧
        op.toNat % 256 ∉ [0x07, 0x0A, 0x15, 0x18, 0x1E, 0x29, 0x33, 0x55, 0x65]))

/-- R88's first law, `decode(encode(i)) = i`, for EVERY class-F byte table of nine distinct bytes, so it does not rest on
D4; and on bytes, with what follows left over. The encoder and its canonical bits are the spec's own (D23, log 29). -/
def Obligations.DecodeEncodeRoundTrip : Prop :=
  (∀ t : ClassFBytes, t.wellFormed = true → ∀ i : Instr, decodeWordWith t (encodeWith t i) = .ok i) ∧
  (∀ (i : Instr) (rest : List Byte), decodeBytes (encodeBytes i ++ rest) = .ok (i, rest))

/-- R88's second law: `encode(decode(op)) = op` exactly for canonical `op` (D23, log 29; the byte table is any
well-formed one). That the low nibble of class 5 is a discarded bit field, not an illegal one, is decision D6 (log 5). -/
def Obligations.CanonicalOpcodesReencode : Prop :=
  ∀ t : ClassFBytes, t.wellFormed = true → ∀ (op : Word) (i : Instr), decodeWordWith t op = .ok i →
    (encodeWith t i = op ↔ canonicalIn (opcodeRows t) op = true)

/-- R92 (marked derived by the spec): the table-driven decoder, the first row with `op AND mask = match`, names the same
variant as the dispatch of R75, and selects no row exactly when that fails. Both take the class-8 pairing from decision
D5 (log 4) and ignore the low nibble of class 5 by D6 (log 5); the class-F bytes are any nine distinct ones. -/
def Obligations.MaskMatchTableAgrees : Prop :=
  ∀ t : ClassFBytes, t.wellFormed = true → ∀ op : Word,
    (rowOf (opcodeRows t) op).map OpcodeRow.mnemonic =
      match decodeWordWith t op with
      | .ok i => some i.mnemonic
      | .error _ => none

/-! ## The step (40_step_cycle.md) -/

/-- R108 (marked derived by the spec): when the bytes at `PC` decode to `i` and the step does not block, the step is the
effect of `i` on the state with `PC` advanced by 2, then the timer stage on a next state; an error or refusal of the
effect is the step's. -/
def Obligations.StepRunsDecodedInstruction : Prop :=
  ∀ (s : State) (i : Instr), s.pc.toNat + 1 < 4096 →
    decodeBytes [s.mem.read s.pc.toNat, s.mem.read (s.pc.toNat + 1)] = .ok (i, []) →
    ¬ ((∃ x, i = .waitForKey x) ∧ s.keys = 0) →
    (∀ t, exec i { s with pc := s.pc + 2 } = .next t → step s = .next (updateTimersWith Config.timerDivider t)) ∧
    (∀ e, exec i { s with pc := s.pc + 2 } = .fault e → step s = .fault e) ∧
    (∀ q, exec i { s with pc := s.pc + 2 } = .refused q → step s = .refused q)

/-- R101: the step fails with ProgramCounterOutOfBounds, payload `PC`, exactly when `PC + 1 ≥ 4096`, and then changes no
state. -/
def Obligations.ProgramCounterBoundsCheck : Prop :=
  ∀ s : State,
    (4096 ≤ s.pc.toNat + 1 → step s = .fault (.programCounterOutOfBounds s.pc) ∧
      runCommand .step s = (s, .error (.programCounterOutOfBounds s.pc))) ∧
    (s.pc.toNat + 1 < 4096 → ∀ p, step s ≠ .fault (.programCounterOutOfBounds p))

/-- R102, R103: the opcode is `MEM[PC] * 256 + MEM[PC+1]` from memory as it stands; when it has no decoding the step ends
with InvalidInstruction carrying it and no state is changed. -/
def Obligations.InvalidOpcodeEndsStepUnchanged : Prop :=
  ∀ (s : State) (op : Word), Fetches s op →
    fetchOpcode s = op ∧
    ∀ e, decodeWord op = .error e →
      step s = .fault (.invalidInstruction op) ∧ runCommand .step s = (s, .error (.invalidInstruction op))

/-- R104, R240 (that the timers and CYCLE stand still is decision D3, log 2): WaitForKey with `KEYS = 0` ends the step as
blocked with nothing changed, and goes on doing so for any number of steps. -/
def Obligations.WaitForKeyBlocksAndFreezesTime : Prop :=
  ∀ (s : State) (op : Word) (x : Reg), Fetches s op → decodeWord op = .ok (.waitForKey x) → s.keys = 0 →
    runCommand .step s = (s, .blocked) ∧ ∀ k : Nat, Host.Core.run Sys2Proof.core k s = .next s

/-- R107, for every divider `N ≥ 1` (the compare `≥ N` and that `CYCLE` is state are decision D3, log 2; the divider is
open, D2, log 1): the stage runs after the effect in every step that reached it without error; it counts the step, and when
the count reaches `N` decrements both timers, floored at 0, and starts again; it changes nothing else and leaves
`CYCLE ≤ N - 1`; from `CYCLE = 0` the first decrement is at the end of the `N`-th such stage. -/
def Obligations.TimerStage : Prop :=
  ∀ n : Nat, 1 ≤ n →
    (∀ s : State, s.cycle + 1 < n → updateTimersWith n s = { s with cycle := s.cycle + 1 }) ∧
    (∀ s : State, n ≤ s.cycle + 1 →
      (updateTimersWith n s).dt.toNat = s.dt.toNat - 1 ∧ (updateTimersWith n s).st.toNat = s.st.toNat - 1 ∧
      { updateTimersWith n s with dt := s.dt, st := s.st } = { s with cycle := 0 }) ∧
    (∀ s : State, (updateTimersWith n s).cycle ≤ n - 1) ∧
    (∀ (s : State) (op : Word) (i : Instr) (t : State), Fetches s op → decodeWord op = .ok i →
      ¬ ((∃ x, i = .waitForKey x) ∧ s.keys = 0) → exec i { s with pc := s.pc + 2 } = .next t →
      stepWith n s = .next (updateTimersWith n t)) ∧
    (∀ s : State, s.cycle = 0 →
      (∀ k, k < n → ((updateTimersWith n)^[k] s).dt = s.dt ∧ ((updateTimersWith n)^[k] s).st = s.st ∧
        ((updateTimersWith n)^[k] s).cycle = k) ∧
      ((updateTimersWith n)^[n] s).dt.toNat = s.dt.toNat - 1 ∧ ((updateTimersWith n)^[n] s).st.toNat = s.st.toNat - 1 ∧
      ((updateTimersWith n)^[n] s).cycle = 0)

/-- R110 (marked derived by the spec; the distance 2 is decision D20, log 19), for each of the six skips: a step that
fetches one completes whatever the two bytes after it are, and leaves `PC` four bytes on when the skip is taken and two
bytes on when it is not. A key skip needs `V[x]` to name a key (R181, R182). -/
def Obligations.SkipNeverDecodesTheSkipped : Prop :=
  ∀ (s : State) (op : Word), Fetches s op →
    (∀ x kk, decodeWord op = .ok (.skipIfEqualValue x kk) → StepMovesPcBy (if readV s x = kk then 4 else 2) s) ∧
    (∀ x kk, decodeWord op = .ok (.skipIfNotEqualValue x kk) → StepMovesPcBy (if readV s x = kk then 2 else 4) s) ∧
    (∀ x y, decodeWord op = .ok (.skipIfEqualRegister x y) →
      StepMovesPcBy (if readV s x = readV s y then 4 else 2) s) ∧
    (∀ x y, decodeWord op = .ok (.skipIfNotEqualRegister x y) →
      StepMovesPcBy (if readV s x = readV s y then 2 else 4) s) ∧
    (∀ x, decodeWord op = .ok (.skipIfKeyPressed x) → (readV s x).toNat ≤ 15 →
      StepMovesPcBy (if s.keys.toNat.testBit (readV s x).toNat then 4 else 2) s) ∧
    (∀ x, decodeWord op = .ok (.skipIfKeyNotPressed x) → (readV s x).toNat ≤ 15 →
      StepMovesPcBy (if s.keys.toNat.testBit (readV s x).toNat then 2 else 4) s)

/-- R109, R106 (that a failing effect has written nothing is decision D24, log 22): a failed step leaves the state
unchanged when stage 1 or 2 failed, and otherwise changed in `PC` alone, advanced by 2. -/
def Obligations.FailedStepChangesOnlyPc : Prop :=
  ∀ (s u : State) (e : Fault), runCommand .step s = (u, .error e) →
    (u = s ∧ (4096 ≤ s.pc.toNat + 1 ∨ ∃ op d, Fetches s op ∧ decodeWord op = .error d)) ∨
    (u = { s with pc := s.pc + 2 } ∧ ∃ op i, Fetches s op ∧ decodeWord op = .ok i ∧ exec i u = .fault e)

/-! ## Invariant and reset -/

/-- R23, R26, R107 and the canonical form of memory (the model's, log 26): whatever state the invariant holds in, it holds
after a step. So `PC ≤ 4098` and the 16-bit `PC` never wraps (R23, decision D26, log 23), every pushed return address is
at most 4096, and `CYCLE` stays below the divider. -/
def Obligations.StepKeepsMachineInvariant : Prop :=
  ∀ s t : State, Inv s → step s = .next t → Inv t

/-- The reset state satisfies the invariant, whatever the parameter `FONT` is (R7, R34; `CYCLE = 0` by decision D3,
log 2). -/
def Obligations.ResetSatisfiesMachineInvariant : Prop := Inv State.reset ∧ ∀ f : FontTable, Inv (State.resetWith f)

/-- Every host command, whatever its argument, whatever `FONT` is and also when it fails, keeps the invariant (R235,
R246, R7). -/
def Obligations.CommandsKeepMachineInvariant : Prop :=
  ∀ (f : FontTable) (c : Command) (s : State), Inv s → Inv (runCommandWith f c s).1

/-- R34, R33, R7: the value of every piece of state after reset, for every value of the parameter `FONT`, which fills the
bytes 0..79 (base 0 is decision D18, log 17); `State.reset` is the reset under the default `fontTable` (PRESUMED, log 17).
`CYCLE = 0` is decision D3 (log 2); `draws` is not stated (log 25). -/
def Obligations.ResetValues : Prop :=
  State.resetWith fontTable = State.reset ∧
  ∀ f : FontTable,
    (∀ r : Reg, readV (State.resetWith f) r = 0) ∧ (State.resetWith f).pc = 0x200 ∧ (State.resetWith f).i = 0 ∧
    (State.resetWith f).sp = 0 ∧ (∀ k : Fin Config.stackDepth, (State.resetWith f).stack[k.val] = 0) ∧
    (∀ a : Fin Config.fontLen, (State.resetWith f).mem.read a.val = f[a.val]) ∧
    (∀ a, 80 ≤ a → a < 4096 → (State.resetWith f).mem.read a = 0) ∧
    (∀ r c, getPixel (State.resetWith f).screen r c = false) ∧ (State.resetWith f).keys = 0 ∧
    (State.resetWith f).dt = 0 ∧ (State.resetWith f).st = 0 ∧ (State.resetWith f).cycle = 0

/-- R231, and R230 with R34 for the clause that the result is the reset state, for every value of the parameter `FONT` (R7):
reset cannot fail, its result does not depend on the state before it, and twice is once. That `CYCLE` is 0 in the reset
state is decision D3 (log 2), that the font stands at 0 is D18 (log 17), and that the model's own draw counter, which is no
state of the spec's, runs on over a reset is the model's choice (log 25). -/
def Obligations.ResetForgetsTheStateBefore : Prop :=
  ∀ (f : FontTable) (s s' : State),
    (runCommandWith f .reset s).2 = .ok ∧
    { (runCommandWith f .reset s).1 with draws := 0 } = { (runCommandWith f .reset s').1 with draws := 0 } ∧
    { (runCommandWith f .reset s).1 with draws := 0 } = { State.resetWith f with draws := 0 } ∧
    runCommandWith f .reset (runCommandWith f .reset s).1 = runCommandWith f .reset s

/-! ## The host's other commands -/

/-- R201, R233: `load` copies the bytes to 0x200 on and changes nothing else; a ROM of more than 3584 bytes is RomTooLarge
and changes nothing; `step` never returns RomTooLarge. -/
def Obligations.LoadCopiesTheRom : Prop :=
  ∀ (rom : List Byte) (s : State),
    (rom.length ≤ 3584 → ∃ t, runCommand (.load rom) s = (t, .ok) ∧
      (∀ k (h : k < rom.length), t.mem.read (0x200 + k) = rom[k]) ∧
      (∀ a, a < 0x200 ∨ 0x200 + rom.length ≤ a → t.mem.read a = s.mem.read a) ∧
      { t with mem := s.mem } = s) ∧
    (3584 < rom.length → runCommand (.load rom) s = (s, .error .romTooLarge)) ∧
    step s ≠ .fault .romTooLarge

/-- R217: `peek_instruction(a)` changes nothing, fails with MemoryAccessError from 4094 on, and otherwise answers the
decoding of the two bytes, an instruction or InvalidInstruction; after `load` of at least two bytes,
`peek_instruction(0x200)` answers the decoding of the first two, whichever it is. -/
def Obligations.PeekDecodesWithoutChange : Prop :=
  (∀ (a : Nat) (s : State),
    (4094 ≤ a → runCommand (.peekInstruction a) s = (s, .error .memoryAccessError)) ∧
    (a < 4094 → ∀ op : Word, op.toNat = (s.mem.read a).toNat * 256 + (s.mem.read (a + 1)).toNat →
      (∀ i, decodeWord op = .ok i → runCommand (.peekInstruction a) s = (s, .instruction i)) ∧
      (∀ e, decodeWord op = .error e → runCommand (.peekInstruction a) s = (s, .error (.invalidInstruction op))))) ∧
  (∀ (b0 b1 : Byte) (rest : List Byte) (s : State), (b0 :: b1 :: rest).length ≤ 3584 →
    ∀ op : Word, op.toNat = b0.toNat * 256 + b1.toNat →
      (∀ i, decodeWord op = .ok i →
        (runCommand (.peekInstruction 0x200) (runCommand (.load (b0 :: b1 :: rest)) s).1).2 = .instruction i) ∧
      (∀ e, decodeWord op = .error e →
        (runCommand (.peekInstruction 0x200) (runCommand (.load (b0 :: b1 :: rest)) s).1).2 =
          .error (.invalidInstruction op)))

/-- R213: `set_input_keys` sets `KEYS` to bits 15..0 of the mask, bit `n` for key `n`, and nothing else. R214:
`is_sound_active` is `ST > 1`, and reading it changes no state. -/
def Obligations.KeyMaskAndSoundOutput : Prop :=
  (∀ (mask : Nat) (s : State), ∃ t, runCommand (.setInputKeys mask) s = (t, .ok) ∧
    (∀ k : Fin 16, keyHeld t k = mask.testBit k.val) ∧ { t with keys := s.keys } = s) ∧
  (∀ s : State, ∃ b, runCommand .isSoundActive s = (s, .sound b) ∧ (b = true ↔ 1 < s.st.toNat))

/-- R36: `current_state` shows the ten fields as they stand and changes nothing. -/
def Obligations.CurrentStateShowsTenFields : Prop :=
  ∀ s : State, ∃ w, runCommand .currentState s = (s, .view w) ∧
    (∀ r : Reg, w.registers[r.val] = readV s r) ∧ w.stack = s.stack ∧ w.stackPointer = s.sp ∧ w.memory = s.mem ∧
    w.screen = s.screen ∧ w.inputKeys = s.keys ∧ w.indexRegister = s.i ∧ w.soundTimer = s.st ∧ w.delayTimer = s.dt ∧
    w.programCounter = s.pc

/-! ## Memory (20_memory.md) -/

/-- R52, R53: `MemRead` gives the bytes in ascending order; `MemWrite` sets the bytes of its span and changes nothing
else; every instruction that uses a span raises first when it passes 4096 (for Draw decision D12, at the edges D25,
log 11). -/
def Obligations.MemReadAndMemWrite : Prop :=
  (∀ (m : Memory) (a n : Nat), a + n ≤ 4096 →
    (m.readBytes a n).length = n ∧ ∀ k, k < n → (m.readBytes a n)[k]? = some (m.read (a + k))) ∧
  (∀ (m : Memory) (a : Nat) (bs : List Byte), a + bs.length ≤ 4096 →
    (∀ k (h : k < bs.length), (m.writeBytes a bs).read (a + k) = bs[k]) ∧
    (∀ x, x < a ∨ a + bs.length ≤ x → (m.writeBytes a bs).read x = m.read x)) ∧
  (∀ (s : State) (x y : Reg) (n : SpriteLen),
    (4096 < s.i.toNat + 3 → exec (.storeBcd x) s = .fault .memoryAccessError) ∧
    (4096 < s.i.toNat + (x.val + 1) → exec (.storeRegisters x) s = .fault .memoryAccessError ∧
      exec (.loadRegisters x) s = .fault .memoryAccessError) ∧
    (4096 < s.i.toNat + n.val → exec (.draw x y n) s = .fault .memoryAccessError))

/-- The canonical form of memory (the model's representation, log 26): a write inside memory keeps it, and two canonical
memories that read the same at every address are the same data. -/
def Obligations.MemoryFormIsCanonical : Prop :=
  (∀ (m : Memory) (a : Nat) (b : Byte), a < 4096 → m.wf = true → (m.write a b).wf = true) ∧
  (∀ m m' : Memory, m.wf = true → m'.wf = true → (∀ a, a < 4096 → m.read a = m'.read a) → m = m')

/-- R63 (marked derived by the spec): bytes that StoreRegisters wrote are what the next fetch at their address reads, high
byte at the lower address (R56). -/
def Obligations.StoreSeenByNextFetch : Prop :=
  ∀ (s t u : State) (x k k' : Reg), exec (.storeRegisters x) s = .next t → k'.val = k.val + 1 → k'.val ≤ x.val →
    u.mem = t.mem → u.pc.toNat = s.i.toNat + k.val →
    Fetches u (BitVec.ofNat 16 ((readV s k).toNat * 256 + (readV s k').toNat))

/-! ## Control flow (41_flow.md) -/

/-- R120: every class-0 opcode but `00E0` and `00EE` is a Nop; its effect changes nothing and raises nothing; the step
advances `PC` by 2, runs the timer stage and does nothing else; past address 4094 the next step fails with
ProgramCounterOutOfBounds(4096). -/
def Obligations.NopOnlyAdvances : Prop :=
  ∀ (nnn : Addr), nnn.toNat ≠ 0x0E0 → nnn.toNat ≠ 0x0EE →
    decodeWord (BitVec.ofNat 16 nnn.toNat) = .ok .nop ∧
    (∀ s : State, exec .nop s = .next s) ∧
    (∀ s : State, Fetches s (BitVec.ofNat 16 nnn.toNat) →
      step s = .next (updateTimersWith Config.timerDivider { s with pc := s.pc + 2 }) ∧
      (s.pc.toNat = 4094 →
        step (updateTimersWith Config.timerDivider { s with pc := s.pc + 2 }) =
          .fault (.programCounterOutOfBounds 4096)))

/-- R122: Jump, for every target: `PC` is the zero-extended address and everything else is unchanged; the target is not
checked, and a Jump to 0xFFF makes the next step fail with ProgramCounterOutOfBounds(4095). In a step the advance is
overwritten, and the timer stage runs, also when the target is the Jump's own address. -/
def Obligations.JumpLoadsPc : Prop :=
  ∀ nnn : Addr,
    decodeWord (BitVec.ofNat 16 (0x1000 + nnn.toNat)) = .ok (.jump nnn) ∧
    (∀ s : State, ∃ t, exec (.jump nnn) s = .next t ∧ t.pc.toNat = nnn.toNat ∧ RegisterFrame [] s t ∧
      (nnn.toNat = 0xFFF → step t = .fault (.programCounterOutOfBounds 4095))) ∧
    ∀ s : State, Fetches s (BitVec.ofNat 16 (0x1000 + nnn.toNat)) →
      step s = .next (updateTimersWith Config.timerDivider { s with pc := BitVec.ofNat 16 nnn.toNat })

/-- R123 (what is pushed is decision D19, log 18): Call pushes the advanced `PC`, raises `SP` and loads `PC`, everything
else unchanged, every other slot too; at depth 32 it fails. -/
def Obligations.CallPushesAndJumps : Prop :=
  ∀ (nnn : Addr) (s : State),
    (∀ h : s.sp.val < 32, ∃ t, exec (.call nnn) s = .next t ∧ t.pc.toNat = nnn.toNat ∧ t.sp.val = s.sp.val + 1 ∧
      t.stack[s.sp.val] = s.pc ∧ (∀ k : Fin Config.stackDepth, k.val ≠ s.sp.val → t.stack[k.val] = s.stack[k.val]) ∧
      KeepsRegistersBut [] s t ∧ KeepsMemory s t ∧ KeepsScreen s t ∧ KeepsTimers s t ∧ KeepsHidden s t ∧ t.i = s.i) ∧
    (s.sp.val = 32 → exec (.call nnn) s = .fault .callStackDepthExceeded)

/-- R121 (that the slot keeps its value is decision D19, log 18): Return lowers `SP` and loads `PC` from the newest slot,
everything else unchanged, the slots too; with an empty stack it fails. -/
def Obligations.ReturnPopsPc : Prop :=
  ∀ s : State,
    (∀ k : Fin Config.stackDepth, s.sp.val = k.val + 1 → ∃ t, exec .ret s = .next t ∧ t.pc = s.stack[k.val] ∧
      t.sp.val = k.val ∧ (∀ j : Fin Config.stackDepth, t.stack[j.val] = s.stack[j.val]) ∧
      KeepsRegistersBut [] s t ∧ KeepsMemory s t ∧ KeepsScreen s t ∧ KeepsTimers s t ∧ KeepsHidden s t ∧ t.i = s.i) ∧
    (s.sp.val = 0 → exec .ret s = .fault .callStackEmpty)

/-- R125 (marked derived by the spec): a Return from the stack that a Call left comes back to the instruction after the
Call, at the depth before it. -/
def Obligations.ReturnUndoesCall : Prop :=
  ∀ (nnn : Addr) (s t u : State), exec (.call nnn) s = .next t → u.stack = t.stack → u.sp = t.sp →
    ∃ w, exec .ret u = .next w ∧ w.pc = s.pc ∧ w.sp = s.sp

/-- R124 (the bound is decision D17, log 16): JumpRelative goes to `nnn + V[0]` when that is below 4096, everything else
unchanged, and fails otherwise; the sum never wraps. -/
def Obligations.JumpRelativeAddsRegisterZero : Prop :=
  ∀ (nnn : Addr) (s : State),
    (nnn.toNat + (readV s 0).toNat < 4096 → ∃ t, exec (.jumpRelative nnn) s = .next t ∧
      t.pc.toNat = nnn.toNat + (readV s 0).toNat ∧ RegisterFrame [] s t) ∧
    (4096 ≤ nnn.toNat + (readV s 0).toNat → exec (.jumpRelative nnn) s = .fault .memoryAccessError)

/-- R204: Call at `SP = 32` fails with CallStackDepthExceeded and Return at `SP = 0` with CallStackEmpty; nothing else
raises either; a step that raises one leaves `PC` at the address after the instruction, and `STACK` and `SP` unchanged. -/
def Obligations.CallStackErrors : Prop :=
  (∀ (s : State) (nnn : Addr), s.sp.val = 32 → exec (.call nnn) s = .fault .callStackDepthExceeded) ∧
  (∀ s : State, s.sp.val = 0 → exec .ret s = .fault .callStackEmpty) ∧
  (∀ (s : State) (i : Instr), exec i s = .fault .callStackDepthExceeded → (∃ nnn, i = .call nnn) ∧ s.sp.val = 32) ∧
  (∀ (s : State) (i : Instr), exec i s = .fault .callStackEmpty → i = .ret ∧ s.sp.val = 0) ∧
  (∀ (s : State) (e : Fault), e = .callStackDepthExceeded ∨ e = .callStackEmpty → step s = .fault e →
    ∃ u, runCommand .step s = (u, .error e) ∧ u.pc = s.pc + 2 ∧ KeepsStack s u)

/-! ## Skips (42_skips.md) -/

/-- R131, R132, R134 (the distance 2 is decision D20, log 19; the low nibble of class 9 is D6, log 5): each compares full
8-bit values and, when the comparison holds, moves `PC` by a further 2; nothing else changes and nothing is raised. -/
def Obligations.SkipsCompareAndSkip : Prop :=
  (∀ (x : Reg) (kk : Byte),
    decodeWord (BitVec.ofNat 16 (0x3000 + x.val * 256 + kk.toNat)) = .ok (.skipIfEqualValue x kk) ∧
    decodeWord (BitVec.ofNat 16 (0x4000 + x.val * 256 + kk.toNat)) = .ok (.skipIfNotEqualValue x kk)) ∧
  (∀ (x y : Reg) (n : Fin 16),
    decodeWord (BitVec.ofNat 16 (0x9000 + x.val * 256 + y.val * 16 + n.val)) = .ok (.skipIfNotEqualRegister x y)) ∧
  (∀ (x : Reg) (kk : Byte) (s : State),
    (∃ t, exec (.skipIfEqualValue x kk) s = .next t ∧
      t.pc = (if (readV s x).toNat = kk.toNat then s.pc + 2 else s.pc) ∧ RegisterFrame [] s t) ∧
    (∃ t, exec (.skipIfNotEqualValue x kk) s = .next t ∧
      t.pc = (if (readV s x).toNat = kk.toNat then s.pc else s.pc + 2) ∧ RegisterFrame [] s t)) ∧
  (∀ (x y : Reg) (s : State),
    ∃ t, exec (.skipIfNotEqualRegister x y) s = .next t ∧
      t.pc = (if (readV s x).toNat = (readV s y).toNat then s.pc else s.pc + 2) ∧ RegisterFrame [] s t)

/-- R133, with the low nibble of class 5 ignored (decision D6, log 5) and the distance 2 (D20, log 19):
SkipIfEqualRegister; `x = y` always skips. -/
def Obligations.SkipIfEqualRegisterCompares : Prop :=
  ∀ (x y : Reg),
    (∀ n : Fin 16,
      decodeWord (BitVec.ofNat 16 (0x5000 + x.val * 256 + y.val * 16 + n.val)) = .ok (.skipIfEqualRegister x y)) ∧
    ∀ s : State, ∃ t, exec (.skipIfEqualRegister x y) s = .next t ∧
      t.pc = (if (readV s x).toNat = (readV s y).toNat then s.pc + 2 else s.pc) ∧ RegisterFrame [] s t ∧
      (x = y → t.pc = s.pc + 2)

/-! ## Arithmetic (43_alu.md) -/

/-- R141, R143 to R146 (that `V[15]` is left alone is decision D10, log 9): the five instructions that write `V[x]` and no
flag; the bitwise results as numbers. -/
def Obligations.LoadCopyAndLogicResults : Prop :=
  ∀ (x y : Reg) (kk : Byte) (s : State),
    (∃ t, exec (.loadValue x kk) s = .next t ∧ readV t x = kk ∧ t.pc = s.pc ∧ RegisterFrame [x] s t) ∧
    (∃ t, exec (.copy x y) s = .next t ∧ readV t x = readV s y ∧ t.pc = s.pc ∧ RegisterFrame [x] s t) ∧
    (∃ t, exec (.or x y) s = .next t ∧ (readV t x).toNat = (readV s x).toNat ||| (readV s y).toNat ∧ t.pc = s.pc ∧
      RegisterFrame [x] s t) ∧
    (∃ t, exec (.and x y) s = .next t ∧ (readV t x).toNat = (readV s x).toNat &&& (readV s y).toNat ∧ t.pc = s.pc ∧
      RegisterFrame [x] s t) ∧
    (∃ t, exec (.xor x y) s = .next t ∧ (readV t x).toNat = (readV s x).toNat ^^^ (readV s y).toNat ∧ t.pc = s.pc ∧
      RegisterFrame [x] s t)

/-- R142, R147, R148, R150, R152: the two adds and the two subtracts as arithmetic on numbers 0..255, with the old
`V[15]` as operand when `y = 15`. With `x = 15` the flag is what remains (decision D8, log 7). AddValue's flag is 1 when
the sum did not carry (decision D9, log 8). -/
def Obligations.AddAndSubtractResults : Prop :=
  ∀ (x y : Reg) (kk : Byte) (s : State),
    (∃ t, exec (.addValue x kk) s = .next t ∧
      (x ≠ 15 → (readV t x).toNat = ((readV s x).toNat + kk.toNat) % 256) ∧
      (readV t 15).toNat = (if 255 < (readV s x).toNat + kk.toNat then 0 else 1) ∧
      t.pc = s.pc ∧ RegisterFrame [x, 15] s t) ∧
    (∃ t, exec (.addRegister x y) s = .next t ∧
      (x ≠ 15 → (readV t x).toNat = ((readV s x).toNat + (readV s y).toNat) % 256) ∧
      (readV t 15).toNat = (if 255 < (readV s x).toNat + (readV s y).toNat then 1 else 0) ∧
      t.pc = s.pc ∧ RegisterFrame [x, 15] s t) ∧
    (∃ t, exec (.subtractVxVy x y) s = .next t ∧
      (x ≠ 15 → (readV t x).toNat = (if (readV s y).toNat ≤ (readV s x).toNat
        then (readV s x).toNat - (readV s y).toNat else (readV s x).toNat + 256 - (readV s y).toNat)) ∧
      (readV t 15).toNat = (if (readV s y).toNat ≤ (readV s x).toNat then 1 else 0) ∧
      t.pc = s.pc ∧ RegisterFrame [x, 15] s t) ∧
    (∃ t, exec (.subtractVyVx x y) s = .next t ∧
      (x ≠ 15 → (readV t x).toNat = (if (readV s x).toNat ≤ (readV s y).toNat
        then (readV s y).toNat - (readV s x).toNat else (readV s y).toNat + 256 - (readV s x).toNat)) ∧
      (readV t 15).toNat = (if (readV s x).toNat ≤ (readV s y).toNat then 1 else 0) ∧
      t.pc = s.pc ∧ RegisterFrame [x, 15] s t)

/-- R149, R151, R152: the shifts of `V[x]` in place by one, the bit shifted out in `V[15]`; `y` plays no part (decision
D7, log 6); with `x = 15` the flag remains (decision D8, log 7). -/
def Obligations.ShiftResults : Prop :=
  ∀ (x y : Reg) (s : State),
    (∃ t, exec (.shiftRight x y) s = .next t ∧ (x ≠ 15 → (readV t x).toNat = (readV s x).toNat / 2) ∧
      (readV t 15).toNat = (readV s x).toNat % 2 ∧ t.pc = s.pc ∧ RegisterFrame [x, 15] s t ∧
      ∀ y', exec (.shiftRight x y') s = .next t) ∧
    (∃ t, exec (.shiftLeft x y) s = .next t ∧ (x ≠ 15 → (readV t x).toNat = 2 * (readV s x).toNat % 256) ∧
      (readV t 15).toNat = (readV s x).toNat / 128 ∧ t.pc = s.pc ∧ RegisterFrame [x, 15] s t ∧
      ∀ y', exec (.shiftLeft x y') s = .next t)

/-- R153, for every value of the draw (decision D29, log 25): `V[x]` is the drawn byte AND `kk`, so it has no bit outside
`kk`; exactly one byte is drawn; nothing else changes, and that `V[15]` is left alone when `x` is not 15 is
decision D10 (log 9). -/
def Obligations.RandomMasksOneDraw : Prop :=
  ∀ (x : Reg) (kk : Byte) (s : State), ∃ t, exec (.random x kk) s = .next t ∧
    readV t x = Config.randomByte s.draws &&& kk ∧ readV t x &&& ~~~kk = 0 ∧ t.draws = s.draws + 1 ∧ t.pc = s.pc ∧
    KeepsRegistersBut [x] s t ∧ KeepsMemory s t ∧ KeepsScreen s t ∧ KeepsStack s t ∧ KeepsTimers s t ∧ t.i = s.i ∧
    t.keys = s.keys ∧ t.cycle = s.cycle

/-! ## Index register and memory (44_index_memory.md) -/

/-- R161: SetIndex loads `I` with the zero-extended address and changes nothing else. -/
def Obligations.SetIndexLoadsI : Prop :=
  ∀ nnn : Addr,
    decodeWord (BitVec.ofNat 16 (0xA000 + nnn.toNat)) = .ok (.setIndex nnn) ∧
    ∀ s : State, ∃ t, exec (.setIndex nnn) s = .next t ∧ t.i.toNat = nnn.toNat ∧ t.pc = s.pc ∧
      KeepsRegistersBut [] s t ∧ KeepsMemory s t ∧ KeepsScreen s t ∧ KeepsStack s t ∧ KeepsTimers s t ∧ KeepsHidden s t

/-- R162 (the wrap is decision D15, log 14; no flag is decision D10, log 9) and R163 (no mask is decision D27, log 24):
AddToIndex and SelectCharacter, which never fail. R33, for every value of the parameter `FONT` (base 0 is decision D18,
log 17): while memory holds the font at 0..79, the five bytes from `I` on are glyph `V[x]` for a digit 0..15. -/
def Obligations.IndexArithmetic : Prop :=
  ∀ (x : Reg) (s : State),
    (∃ t, exec (.addToIndex x) s = .next t ∧ t.i.toNat = (s.i.toNat + (readV s x).toNat) % 65536 ∧ t.pc = s.pc ∧
      KeepsRegistersBut [] s t ∧ KeepsMemory s t ∧ KeepsScreen s t ∧ KeepsStack s t ∧ KeepsTimers s t ∧
      KeepsHidden s t) ∧
    (∃ t, exec (.selectCharacter x) s = .next t ∧ t.i.toNat = (readV s x).toNat * 5 ∧ t.i.toNat + 5 ≤ 4096 ∧
      t.pc = s.pc ∧ KeepsRegistersBut [] s t ∧ KeepsMemory s t ∧ KeepsScreen s t ∧ KeepsStack s t ∧ KeepsTimers s t ∧
      KeepsHidden s t ∧
      ∀ f : FontTable, (∀ a : Fin Config.fontLen, s.mem.read a.val = f[a.val]) → (readV s x).toNat ≤ 15 →
        ∀ k : Fin Config.fontGlyphBytes, f[5 * (readV s x).toNat + k.val]? = some (t.mem.read (t.i.toNat + k.val)))

/-- R164, R160 (that `I` is kept is decision D16, log 15): StoreBcd writes the three decimal digits at `I`, `I+1`, `I+2`
and no other byte; when the span passes 4096 it fails. -/
def Obligations.StoreBcdWritesThreeDigits : Prop :=
  ∀ (x : Reg) (s : State),
    (s.i.toNat + 3 ≤ 4096 → ∃ t, exec (.storeBcd x) s = .next t ∧
      (t.mem.read s.i.toNat).toNat = (readV s x).toNat / 100 ∧
      (t.mem.read (s.i.toNat + 1)).toNat = (readV s x).toNat / 10 % 10 ∧
      (t.mem.read (s.i.toNat + 2)).toNat = (readV s x).toNat % 10 ∧
      (∀ a, a < s.i.toNat ∨ s.i.toNat + 3 ≤ a → t.mem.read a = s.mem.read a) ∧
      KeepsRegistersBut [] s t ∧ KeepsScreen s t ∧ KeepsStack s t ∧ KeepsTimers s t ∧ KeepsHidden s t ∧ t.i = s.i ∧
      t.pc = s.pc) ∧
    (4096 < s.i.toNat + 3 → exec (.storeBcd x) s = .fault .memoryAccessError)

/-- R165, R166, R160 (that `I` is kept is decision D16, log 15): StoreRegisters writes `V[0]..V[x]` inclusive at
`I..I+x`, ascending, and no other byte; when the span passes 4096 it fails. -/
def Obligations.StoreRegistersWritesBlock : Prop :=
  ∀ (x : Reg) (s : State),
    (s.i.toNat + (x.val + 1) ≤ 4096 → ∃ t, exec (.storeRegisters x) s = .next t ∧
      (∀ k : Reg, k.val ≤ x.val → t.mem.read (s.i.toNat + k.val) = readV s k) ∧
      (∀ a, a < s.i.toNat ∨ s.i.toNat + (x.val + 1) ≤ a → t.mem.read a = s.mem.read a) ∧
      KeepsRegistersBut [] s t ∧ KeepsScreen s t ∧ KeepsStack s t ∧ KeepsTimers s t ∧ KeepsHidden s t ∧ t.i = s.i ∧
      t.pc = s.pc) ∧
    (4096 < s.i.toNat + (x.val + 1) → exec (.storeRegisters x) s = .fault .memoryAccessError)

/-- R165, R167, R160 (that `I` is kept is decision D16, log 15): LoadRegisters loads `V[0]..V[x]` inclusive from
`I..I+x`, `V[15]` as data when `x = 15`; every higher register is unchanged; when the span passes 4096 it fails. -/
def Obligations.LoadRegistersReadsBlock : Prop :=
  ∀ (x : Reg) (s : State),
    (s.i.toNat + (x.val + 1) ≤ 4096 → ∃ t, exec (.loadRegisters x) s = .next t ∧
      (∀ k : Reg, k.val ≤ x.val → readV t k = s.mem.read (s.i.toNat + k.val)) ∧
      (∀ k : Reg, x.val < k.val → readV t k = readV s k) ∧
      KeepsMemory s t ∧ KeepsScreen s t ∧ KeepsStack s t ∧ KeepsTimers s t ∧ KeepsHidden s t ∧ t.i = s.i ∧
      t.pc = s.pc) ∧
    (4096 < s.i.toNat + (x.val + 1) → exec (.loadRegisters x) s = .fault .memoryAccessError)

/-- R166, R167: a LoadRegisters from the block a StoreRegisters wrote gives the registers back. -/
def Obligations.LoadRegistersUndoesStore : Prop :=
  ∀ (x : Reg) (s t u : State), exec (.storeRegisters x) s = .next t → u.mem = t.mem → u.i = s.i →
    ∃ w, exec (.loadRegisters x) u = .next w ∧ ∀ k : Reg, k.val ≤ x.val → readV w k = readV s k

/-! ## Display (45_display.md) -/

/-- R170 (that `V[15]` is not written is decision D10, log 9): ClearScreen sets every pixel to 0 and nothing else. -/
def Obligations.ClearScreenBlanksAll : Prop :=
  ∀ s : State, ∃ t, exec .clearScreen s = .next t ∧ (∀ r c, getPixel t.screen r c = false) ∧ t.pc = s.pc ∧
    KeepsRegistersBut [] s t ∧ KeepsMemory s t ∧ KeepsStack s t ∧ KeepsTimers s t ∧ KeepsHidden s t ∧ t.i = s.i

/-- R171, R172 (the bit order is D11, log 10; the check D12, log 11; one write of the flag D13, log 12; coordinates from
the old `V[15]` D8, log 7): exactly the pixels under the sprite's 1 bits change, each flipped, both axes wrapping;
`V[15]` is 1 if one of them was set before, else 0; memory is only read and `I` is kept; when the span passes 4096 Draw
fails. -/
def Obligations.DrawXorsSpriteAndSetsCollision : Prop :=
  ∀ (x y : Reg) (n : SpriteLen) (s : State),
    (s.i.toNat + n.val ≤ 4096 → ∃ t, exec (.draw x y n) s = .next t ∧
      (∀ r c, (UnderSprite s x y n r c → getPixel t.screen r c = !(getPixel s.screen r c)) ∧
        (¬ UnderSprite s x y n r c → getPixel t.screen r c = getPixel s.screen r c)) ∧
      ((∃ r c, UnderSprite s x y n r c ∧ getPixel s.screen r c = true) → readV t 15 = 1) ∧
      ((¬ ∃ r c, UnderSprite s x y n r c ∧ getPixel s.screen r c = true) → readV t 15 = 0) ∧
      KeepsRegistersBut [15] s t ∧ KeepsMemory s t ∧ KeepsStack s t ∧ KeepsTimers s t ∧ KeepsHidden s t ∧ t.i = s.i ∧
      t.pc = s.pc) ∧
    (4096 < s.i.toNat + n.val → exec (.draw x y n) s = .fault .memoryAccessError)

/-- R173 (a) (marked derived by the spec): the same sprite drawn twice restores the screen, and the second Draw reports a
collision exactly when some 1 bit landed on a clear pixel the first time. With `x` or `y` 15 the law does not apply. -/
def Obligations.DrawTwiceRestoresScreen : Prop :=
  ∀ (x y : Reg) (n : SpriteLen) (s : State), x ≠ 15 → y ≠ 15 → s.i.toNat + n.val ≤ 4096 →
    ∃ t u, exec (.draw x y n) s = .next t ∧ exec (.draw x y n) t = .next u ∧
      (∀ r c, getPixel u.screen r c = getPixel s.screen r c) ∧
      (readV u 15 = 1 ↔ ∃ r c, UnderSprite s x y n r c ∧ getPixel s.screen r c = false)

/-! ## Keys and timers (46_keys_timers.md) -/

/-- R181, R182 (the distance 2 is decision D20, log 19; the state a failed step leaves D24, log 22): the key skips for
every register value: 0..15 names a key and the skip follows its bit of `KEYS`; a value above 15 is InvalidInputKey with
that value, and the failed step leaves `PC` advanced and nothing else changed. -/
def Obligations.KeySkipsFollowKeys : Prop :=
  ∀ x : Reg,
    decodeWord (BitVec.ofNat 16 (0xE09E + x.val * 256)) = .ok (.skipIfKeyPressed x) ∧
    decodeWord (BitVec.ofNat 16 (0xE0A1 + x.val * 256)) = .ok (.skipIfKeyNotPressed x) ∧
    (∀ s : State, (readV s x).toNat ≤ 15 →
      (∃ t, exec (.skipIfKeyPressed x) s = .next t ∧
        t.pc = (if s.keys.toNat.testBit (readV s x).toNat then s.pc + 2 else s.pc) ∧ RegisterFrame [] s t) ∧
      (∃ t, exec (.skipIfKeyNotPressed x) s = .next t ∧
        t.pc = (if s.keys.toNat.testBit (readV s x).toNat then s.pc else s.pc + 2) ∧ RegisterFrame [] s t)) ∧
    (∀ s : State, 15 < (readV s x).toNat →
      exec (.skipIfKeyPressed x) s = .fault (.invalidInputKey (readV s x)) ∧
      exec (.skipIfKeyNotPressed x) s = .fault (.invalidInputKey (readV s x)) ∧
      ((Fetches s (BitVec.ofNat 16 (0xE09E + x.val * 256)) ∨ Fetches s (BitVec.ofNat 16 (0xE0A1 + x.val * 256))) →
        runCommand .step s = ({ s with pc := s.pc + 2 }, .error (.invalidInputKey (readV s x)))))

/-- R183 (that the key's number is stored, and that it is the lowest, is decision D14, log 13): WaitForKey run with a key
held writes the number of the lowest held key; run with none it raises ExpectingInputKey. -/
def Obligations.WaitForKeyStoresLowestHeld : Prop :=
  ∀ (x : Reg) (s : State),
    (s.keys ≠ 0 → ∃ t, exec (.waitForKey x) s = .next t ∧ (readV t x).toNat < 16 ∧
      s.keys.toNat.testBit (readV t x).toNat = true ∧
      (∀ j, j < (readV t x).toNat → s.keys.toNat.testBit j = false) ∧ t.pc = s.pc ∧ RegisterFrame [x] s t) ∧
    (s.keys = 0 → exec (.waitForKey x) s = .fault .expectingInputKey)

/-- R184, R185, R186: the timer instructions move a byte between `V[x]` and a timer and change nothing else; `CYCLE` is
not reset. (The low bytes that encode them are D4, log 3.) -/
def Obligations.TimerInstructionsMoveBytes : Prop :=
  ∀ (x : Reg) (s : State),
    (∃ t, exec (.readDelayTimer x) s = .next t ∧ readV t x = s.dt ∧ t.pc = s.pc ∧ RegisterFrame [x] s t) ∧
    (∃ t, exec (.setDelayTimer x) s = .next t ∧ t.dt = readV s x ∧ t.st = s.st ∧ t.pc = s.pc ∧
      KeepsRegistersBut [] s t ∧ KeepsMemory s t ∧ KeepsScreen s t ∧ KeepsStack s t ∧ KeepsHidden s t ∧ t.i = s.i) ∧
    (∃ t, exec (.setSoundTimer x) s = .next t ∧ t.st = readV s x ∧ t.dt = s.dt ∧ t.pc = s.pc ∧
      KeepsRegistersBut [] s t ∧ KeepsMemory s t ∧ KeepsScreen s t ∧ KeepsStack s t ∧ KeepsHidden s t ∧ t.i = s.i)

/-- R206: InvalidInputKey is raised by the two key skips alone, when `V[x] > 15`, with that value; ExpectingInputKey only
by the WaitForKey effect run with `KEYS = 0`, and never by a step. -/
def Obligations.KeyErrorsRaisedOnlyHere : Prop :=
  (∀ (s : State) (i : Instr) (b : Byte), exec i s = .fault (.invalidInputKey b) ↔
    ∃ x, (i = .skipIfKeyPressed x ∨ i = .skipIfKeyNotPressed x) ∧ b = readV s x ∧ 15 < b.toNat) ∧
  (∀ (s : State) (i : Instr), exec i s = .fault .expectingInputKey ↔ (∃ x, i = .waitForKey x) ∧ s.keys = 0) ∧
  (∀ s : State, step s ≠ .fault .expectingInputKey)

/-! ## Rules about the whole machine -/

/-- R21 (its last sentence rests on decision D10, log 9): `V[15]` changes only by the six flag-writing arithmetic
instructions, Draw, `LoadRegisters` with `x = 15`, or an instruction whose destination `x` is 15. -/
def Obligations.OnlyTheseWriteTheFlagRegister : Prop :=
  ∀ (i : Instr) (s t : State), exec i s = .next t → readV t 15 ≠ readV s 15 →
    match i with
    | .addValue _ _ | .addRegister _ _ | .subtractVxVy _ _ | .subtractVyVx _ _ | .shiftRight _ _ | .shiftLeft _ _ => True
    | .draw _ _ _ => True
    | .loadRegisters x | .loadValue x _ | .random x _ | .readDelayTimer x | .waitForKey x => x = 15
    | .copy x _ | .or x _ | .and x _ | .xor x _ => x = 15
    | .nop | .clearScreen | .ret | .jump _ | .call _ | .jumpRelative _ | .setIndex _ => False
    | .skipIfEqualValue _ _ | .skipIfNotEqualValue _ _ | .skipIfEqualRegister _ _ | .skipIfNotEqualRegister _ _ => False
    | .skipIfKeyPressed _ | .skipIfKeyNotPressed _ | .setDelayTimer _ | .setSoundTimer _ => False
    | .addToIndex _ | .selectCharacter _ | .storeBcd _ | .storeRegisters _ => False

/-- R23 (that nothing wraps is decision D26, log 23; the skip distance D20, log 19): how the effect of each instruction
moves `PC`, the complete list. -/
def Obligations.HowEachInstructionMovesPc : Prop :=
  ∀ (i : Instr) (s t : State), exec i s = .next t →
    match i with
    | .jump nnn | .call nnn => t.pc.toNat = nnn.toNat
    | .ret => ∃ k : Fin Config.stackDepth, s.sp.val = k.val + 1 ∧ t.pc = s.stack[k.val]
    | .jumpRelative nnn => t.pc.toNat = nnn.toNat + (readV s 0).toNat
    | .skipIfEqualValue _ _ | .skipIfNotEqualValue _ _ | .skipIfEqualRegister _ _ => t.pc = s.pc ∨ t.pc = s.pc + 2
    | .skipIfNotEqualRegister _ _ | .skipIfKeyPressed _ | .skipIfKeyNotPressed _ => t.pc = s.pc ∨ t.pc = s.pc + 2
    | .nop | .clearScreen | .loadValue _ _ | .addValue _ _ | .copy _ _ | .or _ _ | .and _ _ | .xor _ _ => t.pc = s.pc
    | .addRegister _ _ | .subtractVxVy _ _ | .shiftRight _ _ | .subtractVyVx _ _ | .shiftLeft _ _ => t.pc = s.pc
    | .setIndex _ | .random _ _ | .draw _ _ _ | .readDelayTimer _ | .waitForKey _ | .setDelayTimer _ => t.pc = s.pc
    | .setSoundTimer _ | .addToIndex _ | .selectCharacter _ | .storeBcd _ | .storeRegisters _ => t.pc = s.pc
    | .loadRegisters _ => t.pc = s.pc

/-- R35, the column "written by instructions": which instructions can change `I`, the stack, memory, the screen, `DT` and
`ST`; none changes `KEYS` or `CYCLE`. -/
def Obligations.WhichInstructionsWriteWhat : Prop :=
  ∀ (i : Instr) (s t : State), exec i s = .next t →
    t.keys = s.keys ∧ t.cycle = s.cycle ∧
    (t.i ≠ s.i → (∃ nnn, i = .setIndex nnn) ∨ ∃ x, i = .addToIndex x ∨ i = .selectCharacter x) ∧
    (t.stack ≠ s.stack ∨ t.sp ≠ s.sp → i = .ret ∨ ∃ nnn, i = .call nnn) ∧
    (t.mem ≠ s.mem → ∃ x, i = .storeBcd x ∨ i = .storeRegisters x) ∧
    (t.screen ≠ s.screen → i = .clearScreen ∨ ∃ x y n, i = .draw x y n) ∧
    (t.dt ≠ s.dt → ∃ x, i = .setDelayTimer x) ∧
    (t.st ≠ s.st → ∃ x, i = .setSoundTimer x) ∧
    (t.draws ≠ s.draws → ∃ x kk, i = .random x kk)

/-- R35, the column "read by instructions", R27, R31: `KEYS` plays no part in any instruction but the two key skips and
WaitForKey; `ST` and `CYCLE` play no part in any: SetSoundTimer, which overwrites `ST`, has the same outcome whatever `ST`
was. -/
def Obligations.KeysSoundAndCycleAreNotRead : Prop :=
  ∀ (i : Instr) (s : State),
    ((∀ x, i ≠ .skipIfKeyPressed x ∧ i ≠ .skipIfKeyNotPressed x ∧ i ≠ .waitForKey x) → ∀ k : Word,
      exec i { s with keys := k } = thenUpdate (exec i s) (fun t => { t with keys := k })) ∧
    ((∀ x, i ≠ .setSoundTimer x) → ∀ b : Byte,
      exec i { s with st := b } = thenUpdate (exec i s) (fun t => { t with st := b })) ∧
    (∀ (x : Reg) (b : Byte), exec (.setSoundTimer x) { s with st := b } = exec (.setSoundTimer x) s) ∧
    (∀ c : Nat, exec i { s with cycle := c } = thenUpdate (exec i s) (fun t => { t with cycle := c }))

/-- R200, R205 (the spans rest on D12, D24, D25, log 11; JumpRelative's bound on D17, log 16): MemoryAccessError is raised
by the effect of an instruction exactly when its span or target lies outside memory, never by SelectCharacter; no effect
raises RomTooLarge, InvalidInstruction or ProgramCounterOutOfBounds; no step raises RomTooLarge; no effect and no step is
refused. -/
def Obligations.MemoryErrorsExactlyAndNoRefusal : Prop :=
  (∀ (i : Instr) (s : State), exec i s = .fault .memoryAccessError ↔
    (∃ x y n, i = .draw x y n ∧ 4096 < s.i.toNat + n.val) ∨ (∃ x, i = .storeBcd x ∧ 4096 < s.i.toNat + 3) ∨
    (∃ x, (i = .storeRegisters x ∨ i = .loadRegisters x) ∧ 4096 < s.i.toNat + (x.val + 1)) ∨
    (∃ nnn, i = .jumpRelative nnn ∧ 4096 ≤ nnn.toNat + (readV s 0).toNat)) ∧
  (∀ (i : Instr) (s : State) (w : Word), exec i s ≠ .fault .romTooLarge ∧ exec i s ≠ .fault (.invalidInstruction w) ∧
    exec i s ≠ .fault (.programCounterOutOfBounds w)) ∧
  (∀ (i : Instr) (s : State) (q : Refusal), exec i s ≠ .refused q) ∧
  (∀ (s : State) (q : Refusal), step s ≠ .fault .romTooLarge ∧ step s ≠ .refused q)

/-- R160, R207, R242 gathered (decisions D12, D17, D24, D25; logs 11, 16, 22): for which states the next step is safe, that is,
returns no error: `PC + 1 < 4096`, the opcode decodes, and its effect's one condition holds. -/
def Obligations.StepIsSafeExactlyWhen : Prop :=
  ∀ (s : State) (op : Word), Fetches s op →
    (SafeStep s ↔ ∃ i, decodeWord op = .ok i ∧
      match i with
      | .ret => 0 < s.sp.val
      | .call _ => s.sp.val < 32
      | .jumpRelative nnn => nnn.toNat + (readV s 0).toNat < 4096
      | .skipIfKeyPressed x | .skipIfKeyNotPressed x => (readV s x).toNat ≤ 15
      | .draw _ _ n => s.i.toNat + n.val ≤ 4096
      | .storeBcd _ => s.i.toNat + 3 ≤ 4096
      | .storeRegisters x | .loadRegisters x => s.i.toNat + (x.val + 1) ≤ 4096
      | .nop | .clearScreen | .jump _ | .skipIfEqualValue _ _ | .skipIfNotEqualValue _ _ => True
      | .skipIfEqualRegister _ _ | .skipIfNotEqualRegister _ _ | .loadValue _ _ | .addValue _ _ | .copy _ _ => True
      | .or _ _ | .and _ _ | .xor _ _ | .addRegister _ _ | .subtractVxVy _ _ | .shiftRight _ _ => True
      | .subtractVyVx _ _ | .shiftLeft _ _ | .setIndex _ | .random _ _ | .readDelayTimer _ | .waitForKey _ => True
      | .setDelayTimer _ | .setSoundTimer _ | .addToIndex _ | .selectCharacter _ => True)

/-- R23, R107 and the canonical form of memory (log 26; nothing wraps by decision D26, log 23): a run of the host of any
length, from any state with the invariant, that answers a next state answers one with the invariant. -/
def Obligations.RunsKeepMachineInvariant : Prop :=
  ∀ (k : Nat) (s t : State), Inv s → Host.Core.run Sys2Proof.core k s = .next t → Inv t

/-- R202 to R206, R201's last sentence, and R203's list of payloads (the errors of stage 5 rest on decisions D12, D17, D24,
D25, log 11, log 16, log 22; the payload's bound on D26, log 23): the errors a run of the host can end in, from any state
with the invariant. An illegal opcode is one that has no decoding, `PC` out of bounds is one of 4095 to 4098, a refused key
number is above 15; RomTooLarge and ExpectingInputKey never end a run. -/
def Obligations.RunsEndOnlyInTheseErrors : Prop :=
  ∀ (k : Nat) (s : State) (e : Fault), Inv s → Host.Core.run Sys2Proof.core k s = .fault e →
    match e with
    | .invalidInstruction op => ∃ d, decodeWord op = .error d
    | .programCounterOutOfBounds p => 4095 ≤ p.toNat ∧ p.toNat ≤ 4098
    | .invalidInputKey b => 15 < b.toNat
    | .callStackDepthExceeded | .callStackEmpty | .memoryAccessError => True
    | .romTooLarge | .expectingInputKey => False
end

