-- ==== Sys2Proof/Laws/Encoding.lean ====
section
/-! SUPPORT. The fields of an opcode and the packed words as numbers, so that facts about encodings are arithmetic. -/

namespace Sys2Proof

theorem fieldClass_eq (op : Word) : fieldClass op = op.toNat / 4096 := by
  have h := op.isLt
  simp only [fieldClass, BitVec.extractLsb'_toNat, Nat.shiftRight_eq_div_pow]
  omega

theorem fieldX_val (op : Word) : (fieldX op).val = op.toNat / 256 % 16 := by
  simp [fieldX, Nat.shiftRight_eq_div_pow]

theorem fieldY_val (op : Word) : (fieldY op).val = op.toNat / 16 % 16 := by
  simp [fieldY, Nat.shiftRight_eq_div_pow]

theorem fieldN_val (op : Word) : (fieldN op).val = op.toNat % 16 := by
  simp [fieldN]

theorem fieldKK_toNat (op : Word) : (fieldKK op).toNat = op.toNat % 256 := by
  simp [fieldKK]

theorem fieldNNN_toNat (op : Word) : (fieldNNN op).toNat = op.toNat % 4096 := by
  simp [fieldNNN]

/-- Appending bit vectors is arithmetic on numbers. -/
theorem toNat_append_eq {m n : Nat} (x : BitVec m) (y : BitVec n) : (x ++ y).toNat = x.toNat * 2 ^ n + y.toNat := by
  rw [BitVec.toNat_append, ← Nat.shiftLeft_add_eq_or_of_lt y.isLt, Nat.shiftLeft_eq]

theorem opcodeOf_toNat (hi lo : Byte) : (opcodeOf hi lo).toNat = hi.toNat * 256 + lo.toNat := toNat_append_eq hi lo

theorem packXKK_toNat (c : BitVec 4) (x : Reg) (kk : Byte) :
    (packXKK c x kk).toNat = c.toNat * 4096 + x.val * 256 + kk.toNat := by
  simp only [packXKK, toNat_append_eq, BitVec.toNat_ofFin]
  omega

theorem packNNN_toNat (c : BitVec 4) (nnn : Addr) : (packNNN c nnn).toNat = c.toNat * 4096 + nnn.toNat :=
  toNat_append_eq c nnn

theorem packXYN_toNat (c : BitVec 4) (x y : Reg) (n : BitVec 4) :
    (packXYN c x y n).toNat = c.toNat * 4096 + x.val * 256 + y.val * 16 + n.toNat := by
  simp only [packXYN, toNat_append_eq, BitVec.toNat_ofFin]
  omega

/-- The two bytes of a word, put together, are the word (20_memory.md R56). -/
@[simp] theorem opcodeOf_wordBytes (op : Word) : opcodeOf (op.extractLsb' 8 8) (op.extractLsb' 0 8) = op := by
  apply BitVec.eq_of_toNat_eq
  have h := op.isLt
  simp only [opcodeOf_toNat, BitVec.extractLsb'_toNat, Nat.shiftRight_eq_div_pow]
  omega

theorem wordBytes_opcodeOf (hi lo : Byte) : wordBytes (opcodeOf hi lo) = [hi, lo] := by
  have h1 := hi.isLt
  have h2 := lo.isLt
  simp only [wordBytes, List.cons.injEq, and_true]
  constructor <;> apply BitVec.eq_of_toNat_eq <;>
    simp only [BitVec.extractLsb'_toNat, opcodeOf_toNat, Nat.shiftRight_eq_div_pow] <;> omega

/-! ## The fields of a packed word -/

@[simp] theorem fieldClass_packXKK (c : BitVec 4) (x : Reg) (kk : Byte) : fieldClass (packXKK c x kk) = c.toNat := by
  rw [fieldClass_eq, packXKK_toNat]; have := kk.isLt; omega

@[simp] theorem fieldX_packXKK (c : BitVec 4) (x : Reg) (kk : Byte) : fieldX (packXKK c x kk) = x := by
  apply Fin.ext; rw [fieldX_val, packXKK_toNat]; have := kk.isLt; omega

@[simp] theorem fieldKK_packXKK (c : BitVec 4) (x : Reg) (kk : Byte) : fieldKK (packXKK c x kk) = kk := by
  apply BitVec.eq_of_toNat_eq; rw [fieldKK_toNat, packXKK_toNat]; have := kk.isLt; omega

@[simp] theorem fieldClass_packNNN (c : BitVec 4) (nnn : Addr) : fieldClass (packNNN c nnn) = c.toNat := by
  rw [fieldClass_eq, packNNN_toNat]; have := nnn.isLt; omega

@[simp] theorem fieldNNN_packNNN (c : BitVec 4) (nnn : Addr) : fieldNNN (packNNN c nnn) = nnn := by
  apply BitVec.eq_of_toNat_eq; rw [fieldNNN_toNat, packNNN_toNat]; have := nnn.isLt; omega

@[simp] theorem fieldClass_packXYN (c : BitVec 4) (x y : Reg) (n : BitVec 4) :
    fieldClass (packXYN c x y n) = c.toNat := by
  rw [fieldClass_eq, packXYN_toNat]; have := n.isLt; omega

@[simp] theorem fieldX_packXYN (c : BitVec 4) (x y : Reg) (n : BitVec 4) : fieldX (packXYN c x y n) = x := by
  apply Fin.ext; rw [fieldX_val, packXYN_toNat]; have := n.isLt; omega

@[simp] theorem fieldY_packXYN (c : BitVec 4) (x y : Reg) (n : BitVec 4) : fieldY (packXYN c x y n) = y := by
  apply Fin.ext; rw [fieldY_val, packXYN_toNat]; have := n.isLt; omega

@[simp] theorem fieldN_packXYN (c : BitVec 4) (x y : Reg) (n : BitVec 4) : fieldN (packXYN c x y n) = n.toFin := by
  apply Fin.ext; rw [fieldN_val, packXYN_toNat]; have := n.isLt; simp; omega

/-! ## Opcodes written as numbers -/

theorem packXKK_eq_ofNat (c : BitVec 4) (x : Reg) (kk : Byte) :
    BitVec.ofNat 16 (c.toNat * 4096 + x.val * 256 + kk.toNat) = packXKK c x kk := by
  apply BitVec.eq_of_toNat_eq
  have h := (packXKK c x kk).isLt
  rw [packXKK_toNat] at h ⊢
  rw [BitVec.toNat_ofNat, Nat.mod_eq_of_lt h]

theorem packNNN_eq_ofNat (c : BitVec 4) (nnn : Addr) :
    BitVec.ofNat 16 (c.toNat * 4096 + nnn.toNat) = packNNN c nnn := by
  apply BitVec.eq_of_toNat_eq
  have h := (packNNN c nnn).isLt
  rw [packNNN_toNat] at h ⊢
  rw [BitVec.toNat_ofNat, Nat.mod_eq_of_lt h]

theorem packXYN_eq_ofNat (c : BitVec 4) (x y : Reg) (n : BitVec 4) :
    BitVec.ofNat 16 (c.toNat * 4096 + x.val * 256 + y.val * 16 + n.toNat) = packXYN c x y n := by
  apply BitVec.eq_of_toNat_eq
  have h := (packXYN c x y n).isLt
  rw [packXYN_toNat] at h ⊢
  rw [BitVec.toNat_ofNat, Nat.mod_eq_of_lt h]

/-! ## The masks of R92 -/

theorem and_classMask_toNat (op : Word) : (op &&& 0xF000#16).toNat = op.toNat / 4096 * 4096 := by
  have h : op &&& 0xF000#16 = packNNN (op.extractLsb' 12 4) 0#12 := by
    apply BitVec.eq_of_getLsbD_eq
    intro i hi
    simp only [packNNN, BitVec.getLsbD_append]
    interval_cases i <;> simp
  rw [h, packNNN_toNat]
  have := op.isLt
  simp only [BitVec.extractLsb'_toNat, Nat.shiftRight_eq_div_pow, BitVec.toNat_ofNat]
  omega

theorem and_nibbleMask_toNat (op : Word) :
    (op &&& 0xF00F#16).toNat = op.toNat / 4096 * 4096 + op.toNat % 16 := by
  have h : op &&& 0xF00F#16 = packXYN (op.extractLsb' 12 4) 0 0 (op.extractLsb' 0 4) := by
    apply BitVec.eq_of_getLsbD_eq
    intro i hi
    simp only [packXYN, BitVec.getLsbD_append]
    interval_cases i <;> simp
  rw [h, packXYN_toNat]
  have := op.isLt
  simp only [BitVec.extractLsb'_toNat, Nat.shiftRight_eq_div_pow, Fin.val_zero]
  omega

theorem and_byteMask_toNat (op : Word) :
    (op &&& 0xF0FF#16).toNat = op.toNat / 4096 * 4096 + op.toNat % 256 := by
  have h : op &&& 0xF0FF#16 = packXKK (op.extractLsb' 12 4) 0 (op.extractLsb' 0 8) := by
    apply BitVec.eq_of_getLsbD_eq
    intro i hi
    simp only [packXKK, BitVec.getLsbD_append]
    interval_cases i <;> simp
  rw [h, packXKK_toNat]
  have := op.isLt
  simp only [BitVec.extractLsb'_toNat, Nat.shiftRight_eq_div_pow, Fin.val_zero]
  omega

theorem and_fullMask (op : Word) : op &&& 0xFFFF#16 = op := by
  apply BitVec.eq_of_getLsbD_eq
  intro i hi
  interval_cases i <;> simp

/-- A row that fixes the class nibble and the low byte selects exactly the opcodes with those. -/
theorem and_byteMask_beq (op : Word) (hi lo : Byte) (h : hi.toNat % 16 = 0) :
    (op &&& 0xF0FF#16 == opcodeOf hi lo) = (decide (op.toNat / 4096 = hi.toNat / 16) && decide (fieldKK op = lo)) := by
  have h1 := op.isLt
  have h2 := hi.isLt
  have h3 := lo.isLt
  rw [Bool.eq_iff_iff]
  simp only [beq_iff_eq, BitVec.toNat_eq, and_byteMask_toNat, opcodeOf_toNat, Bool.and_eq_true, decide_eq_true_eq,
    fieldKK_toNat]
  omega

end Sys2Proof
end

