-- ==== Sys2Proof/Laws/State.lean ====
section
/-! SUPPORT. One lemma per field per named update, true by rfl, so that no later proof unfolds a record update. -/

namespace Sys2Proof.Machine

/-! ## writeV -/

@[simp] theorem writeV_v (s : State) (x : Reg) (b : Byte) : (writeV s x b).v = s.v.set x.val b := rfl
@[simp] theorem writeV_pc (s : State) (x : Reg) (b : Byte) : (writeV s x b).pc = s.pc := rfl
@[simp] theorem writeV_i (s : State) (x : Reg) (b : Byte) : (writeV s x b).i = s.i := rfl
@[simp] theorem writeV_stack (s : State) (x : Reg) (b : Byte) : (writeV s x b).stack = s.stack := rfl
@[simp] theorem writeV_sp (s : State) (x : Reg) (b : Byte) : (writeV s x b).sp = s.sp := rfl
@[simp] theorem writeV_mem (s : State) (x : Reg) (b : Byte) : (writeV s x b).mem = s.mem := rfl
@[simp] theorem writeV_screen (s : State) (x : Reg) (b : Byte) : (writeV s x b).screen = s.screen := rfl
@[simp] theorem writeV_keys (s : State) (x : Reg) (b : Byte) : (writeV s x b).keys = s.keys := rfl
@[simp] theorem writeV_dt (s : State) (x : Reg) (b : Byte) : (writeV s x b).dt = s.dt := rfl
@[simp] theorem writeV_st (s : State) (x : Reg) (b : Byte) : (writeV s x b).st = s.st := rfl
@[simp] theorem writeV_cycle (s : State) (x : Reg) (b : Byte) : (writeV s x b).cycle = s.cycle := rfl
@[simp] theorem writeV_draws (s : State) (x : Reg) (b : Byte) : (writeV s x b).draws = s.draws := rfl

/-! ## writeResultThenFlag -/

@[simp] theorem writeResultThenFlag_v (s : State) (x : Reg) (r f : Byte) :
    (writeResultThenFlag s x r f).v = (s.v.set x.val r).set flagReg.val f := rfl
@[simp] theorem writeResultThenFlag_pc (s : State) (x : Reg) (r f : Byte) :
    (writeResultThenFlag s x r f).pc = s.pc := rfl
@[simp] theorem writeResultThenFlag_i (s : State) (x : Reg) (r f : Byte) :
    (writeResultThenFlag s x r f).i = s.i := rfl
@[simp] theorem writeResultThenFlag_stack (s : State) (x : Reg) (r f : Byte) :
    (writeResultThenFlag s x r f).stack = s.stack := rfl
@[simp] theorem writeResultThenFlag_sp (s : State) (x : Reg) (r f : Byte) :
    (writeResultThenFlag s x r f).sp = s.sp := rfl
@[simp] theorem writeResultThenFlag_mem (s : State) (x : Reg) (r f : Byte) :
    (writeResultThenFlag s x r f).mem = s.mem := rfl
@[simp] theorem writeResultThenFlag_screen (s : State) (x : Reg) (r f : Byte) :
    (writeResultThenFlag s x r f).screen = s.screen := rfl
@[simp] theorem writeResultThenFlag_keys (s : State) (x : Reg) (r f : Byte) :
    (writeResultThenFlag s x r f).keys = s.keys := rfl
@[simp] theorem writeResultThenFlag_dt (s : State) (x : Reg) (r f : Byte) :
    (writeResultThenFlag s x r f).dt = s.dt := rfl
@[simp] theorem writeResultThenFlag_st (s : State) (x : Reg) (r f : Byte) :
    (writeResultThenFlag s x r f).st = s.st := rfl
@[simp] theorem writeResultThenFlag_cycle (s : State) (x : Reg) (r f : Byte) :
    (writeResultThenFlag s x r f).cycle = s.cycle := rfl
@[simp] theorem writeResultThenFlag_draws (s : State) (x : Reg) (r f : Byte) :
    (writeResultThenFlag s x r f).draws = s.draws := rfl

/-! ## loadRegistersUpTo -/

@[simp] theorem loadRegistersUpTo_v (s : State) (x : Reg) :
    (loadRegistersUpTo s x).v = Vector.ofFn fun k => if k.val ≤ x.val then s.mem.read (s.i.toNat + k.val) else s.v[k.val] := by simp only [loadRegistersUpTo]
@[simp] theorem loadRegistersUpTo_pc (s : State) (x : Reg) : (loadRegistersUpTo s x).pc = s.pc := by simp only [loadRegistersUpTo]
@[simp] theorem loadRegistersUpTo_i (s : State) (x : Reg) : (loadRegistersUpTo s x).i = s.i := by simp only [loadRegistersUpTo]
@[simp] theorem loadRegistersUpTo_stack (s : State) (x : Reg) : (loadRegistersUpTo s x).stack = s.stack := by simp only [loadRegistersUpTo]
@[simp] theorem loadRegistersUpTo_sp (s : State) (x : Reg) : (loadRegistersUpTo s x).sp = s.sp := by simp only [loadRegistersUpTo]
@[simp] theorem loadRegistersUpTo_mem (s : State) (x : Reg) : (loadRegistersUpTo s x).mem = s.mem := by simp only [loadRegistersUpTo]
@[simp] theorem loadRegistersUpTo_screen (s : State) (x : Reg) : (loadRegistersUpTo s x).screen = s.screen := by simp only [loadRegistersUpTo]
@[simp] theorem loadRegistersUpTo_keys (s : State) (x : Reg) : (loadRegistersUpTo s x).keys = s.keys := by simp only [loadRegistersUpTo]
@[simp] theorem loadRegistersUpTo_dt (s : State) (x : Reg) : (loadRegistersUpTo s x).dt = s.dt := by simp only [loadRegistersUpTo]
@[simp] theorem loadRegistersUpTo_st (s : State) (x : Reg) : (loadRegistersUpTo s x).st = s.st := by simp only [loadRegistersUpTo]
@[simp] theorem loadRegistersUpTo_cycle (s : State) (x : Reg) : (loadRegistersUpTo s x).cycle = s.cycle := by simp only [loadRegistersUpTo]
@[simp] theorem loadRegistersUpTo_draws (s : State) (x : Reg) : (loadRegistersUpTo s x).draws = s.draws := by simp only [loadRegistersUpTo]

/-! ## countDraw -/

@[simp] theorem countDraw_v (s : State) : (countDraw s).v = s.v := rfl
@[simp] theorem countDraw_pc (s : State) : (countDraw s).pc = s.pc := rfl
@[simp] theorem countDraw_i (s : State) : (countDraw s).i = s.i := rfl
@[simp] theorem countDraw_stack (s : State) : (countDraw s).stack = s.stack := rfl
@[simp] theorem countDraw_sp (s : State) : (countDraw s).sp = s.sp := rfl
@[simp] theorem countDraw_mem (s : State) : (countDraw s).mem = s.mem := rfl
@[simp] theorem countDraw_screen (s : State) : (countDraw s).screen = s.screen := rfl
@[simp] theorem countDraw_keys (s : State) : (countDraw s).keys = s.keys := rfl
@[simp] theorem countDraw_dt (s : State) : (countDraw s).dt = s.dt := rfl
@[simp] theorem countDraw_st (s : State) : (countDraw s).st = s.st := rfl
@[simp] theorem countDraw_cycle (s : State) : (countDraw s).cycle = s.cycle := rfl
@[simp] theorem countDraw_draws (s : State) : (countDraw s).draws = s.draws + 1 := rfl

/-! ## advancePc -/

@[simp] theorem advancePc_v (s : State) : (advancePc s).v = s.v := rfl
@[simp] theorem advancePc_pc (s : State) : (advancePc s).pc = s.pc + 2 := rfl
@[simp] theorem advancePc_i (s : State) : (advancePc s).i = s.i := rfl
@[simp] theorem advancePc_stack (s : State) : (advancePc s).stack = s.stack := rfl
@[simp] theorem advancePc_sp (s : State) : (advancePc s).sp = s.sp := rfl
@[simp] theorem advancePc_mem (s : State) : (advancePc s).mem = s.mem := rfl
@[simp] theorem advancePc_screen (s : State) : (advancePc s).screen = s.screen := rfl
@[simp] theorem advancePc_keys (s : State) : (advancePc s).keys = s.keys := rfl
@[simp] theorem advancePc_dt (s : State) : (advancePc s).dt = s.dt := rfl
@[simp] theorem advancePc_st (s : State) : (advancePc s).st = s.st := rfl
@[simp] theorem advancePc_cycle (s : State) : (advancePc s).cycle = s.cycle := rfl
@[simp] theorem advancePc_draws (s : State) : (advancePc s).draws = s.draws := rfl

/-! ## setPc -/

@[simp] theorem setPc_v (s : State) (t : Word) : (setPc s t).v = s.v := rfl
@[simp] theorem setPc_pc (s : State) (t : Word) : (setPc s t).pc = t := rfl
@[simp] theorem setPc_i (s : State) (t : Word) : (setPc s t).i = s.i := rfl
@[simp] theorem setPc_stack (s : State) (t : Word) : (setPc s t).stack = s.stack := rfl
@[simp] theorem setPc_sp (s : State) (t : Word) : (setPc s t).sp = s.sp := rfl
@[simp] theorem setPc_mem (s : State) (t : Word) : (setPc s t).mem = s.mem := rfl
@[simp] theorem setPc_screen (s : State) (t : Word) : (setPc s t).screen = s.screen := rfl
@[simp] theorem setPc_keys (s : State) (t : Word) : (setPc s t).keys = s.keys := rfl
@[simp] theorem setPc_dt (s : State) (t : Word) : (setPc s t).dt = s.dt := rfl
@[simp] theorem setPc_st (s : State) (t : Word) : (setPc s t).st = s.st := rfl
@[simp] theorem setPc_cycle (s : State) (t : Word) : (setPc s t).cycle = s.cycle := rfl
@[simp] theorem setPc_draws (s : State) (t : Word) : (setPc s t).draws = s.draws := rfl

/-! ## skipNextIf -/

@[simp] theorem skipNextIf_v (c : Bool) (s : State) : (skipNextIf c s).v = s.v := rfl
@[simp] theorem skipNextIf_pc (c : Bool) (s : State) : (skipNextIf c s).pc = if c then s.pc + 2 else s.pc := rfl
@[simp] theorem skipNextIf_i (c : Bool) (s : State) : (skipNextIf c s).i = s.i := rfl
@[simp] theorem skipNextIf_stack (c : Bool) (s : State) : (skipNextIf c s).stack = s.stack := rfl
@[simp] theorem skipNextIf_sp (c : Bool) (s : State) : (skipNextIf c s).sp = s.sp := rfl
@[simp] theorem skipNextIf_mem (c : Bool) (s : State) : (skipNextIf c s).mem = s.mem := rfl
@[simp] theorem skipNextIf_screen (c : Bool) (s : State) : (skipNextIf c s).screen = s.screen := rfl
@[simp] theorem skipNextIf_keys (c : Bool) (s : State) : (skipNextIf c s).keys = s.keys := rfl
@[simp] theorem skipNextIf_dt (c : Bool) (s : State) : (skipNextIf c s).dt = s.dt := rfl
@[simp] theorem skipNextIf_st (c : Bool) (s : State) : (skipNextIf c s).st = s.st := rfl
@[simp] theorem skipNextIf_cycle (c : Bool) (s : State) : (skipNextIf c s).cycle = s.cycle := rfl
@[simp] theorem skipNextIf_draws (c : Bool) (s : State) : (skipNextIf c s).draws = s.draws := rfl

/-! ## storeAtIndex -/

@[simp] theorem storeAtIndex_v (s : State) (bs : List Byte) : (storeAtIndex s bs).v = s.v := rfl
@[simp] theorem storeAtIndex_pc (s : State) (bs : List Byte) : (storeAtIndex s bs).pc = s.pc := rfl
@[simp] theorem storeAtIndex_i (s : State) (bs : List Byte) : (storeAtIndex s bs).i = s.i := rfl
@[simp] theorem storeAtIndex_stack (s : State) (bs : List Byte) : (storeAtIndex s bs).stack = s.stack := rfl
@[simp] theorem storeAtIndex_sp (s : State) (bs : List Byte) : (storeAtIndex s bs).sp = s.sp := rfl
@[simp] theorem storeAtIndex_mem (s : State) (bs : List Byte) :
    (storeAtIndex s bs).mem = s.mem.writeBytes s.i.toNat bs := rfl
@[simp] theorem storeAtIndex_screen (s : State) (bs : List Byte) : (storeAtIndex s bs).screen = s.screen := rfl
@[simp] theorem storeAtIndex_keys (s : State) (bs : List Byte) : (storeAtIndex s bs).keys = s.keys := rfl
@[simp] theorem storeAtIndex_dt (s : State) (bs : List Byte) : (storeAtIndex s bs).dt = s.dt := rfl
@[simp] theorem storeAtIndex_st (s : State) (bs : List Byte) : (storeAtIndex s bs).st = s.st := rfl
@[simp] theorem storeAtIndex_cycle (s : State) (bs : List Byte) : (storeAtIndex s bs).cycle = s.cycle := rfl
@[simp] theorem storeAtIndex_draws (s : State) (bs : List Byte) : (storeAtIndex s bs).draws = s.draws := rfl

/-! ## updateTimersWith -/

@[simp] theorem updateTimersWith_v (n : Nat) (s : State) : (updateTimersWith n s).v = s.v := rfl
@[simp] theorem updateTimersWith_pc (n : Nat) (s : State) : (updateTimersWith n s).pc = s.pc := rfl
@[simp] theorem updateTimersWith_i (n : Nat) (s : State) : (updateTimersWith n s).i = s.i := rfl
@[simp] theorem updateTimersWith_stack (n : Nat) (s : State) : (updateTimersWith n s).stack = s.stack := rfl
@[simp] theorem updateTimersWith_sp (n : Nat) (s : State) : (updateTimersWith n s).sp = s.sp := rfl
@[simp] theorem updateTimersWith_mem (n : Nat) (s : State) : (updateTimersWith n s).mem = s.mem := rfl
@[simp] theorem updateTimersWith_screen (n : Nat) (s : State) : (updateTimersWith n s).screen = s.screen := rfl
@[simp] theorem updateTimersWith_keys (n : Nat) (s : State) : (updateTimersWith n s).keys = s.keys := rfl
@[simp] theorem updateTimersWith_dt (n : Nat) (s : State) :
    (updateTimersWith n s).dt = if dividerExpires n s then countDown s.dt else s.dt := rfl
@[simp] theorem updateTimersWith_st (n : Nat) (s : State) :
    (updateTimersWith n s).st = if dividerExpires n s then countDown s.st else s.st := rfl
@[simp] theorem updateTimersWith_cycle (n : Nat) (s : State) :
    (updateTimersWith n s).cycle = if dividerExpires n s then 0 else s.cycle + 1 := rfl
@[simp] theorem updateTimersWith_draws (n : Nat) (s : State) : (updateTimersWith n s).draws = s.draws := rfl

/-! ## setInputKeys -/

@[simp] theorem setInputKeys_v (k : Nat) (s : State) : (setInputKeys k s).v = s.v := rfl
@[simp] theorem setInputKeys_pc (k : Nat) (s : State) : (setInputKeys k s).pc = s.pc := rfl
@[simp] theorem setInputKeys_i (k : Nat) (s : State) : (setInputKeys k s).i = s.i := rfl
@[simp] theorem setInputKeys_stack (k : Nat) (s : State) : (setInputKeys k s).stack = s.stack := rfl
@[simp] theorem setInputKeys_sp (k : Nat) (s : State) : (setInputKeys k s).sp = s.sp := rfl
@[simp] theorem setInputKeys_mem (k : Nat) (s : State) : (setInputKeys k s).mem = s.mem := rfl
@[simp] theorem setInputKeys_screen (k : Nat) (s : State) : (setInputKeys k s).screen = s.screen := rfl
@[simp] theorem setInputKeys_keys (k : Nat) (s : State) : (setInputKeys k s).keys = BitVec.ofNat 16 k := rfl
@[simp] theorem setInputKeys_dt (k : Nat) (s : State) : (setInputKeys k s).dt = s.dt := rfl
@[simp] theorem setInputKeys_st (k : Nat) (s : State) : (setInputKeys k s).st = s.st := rfl
@[simp] theorem setInputKeys_cycle (k : Nat) (s : State) : (setInputKeys k s).cycle = s.cycle := rfl
@[simp] theorem setInputKeys_draws (k : Nat) (s : State) : (setInputKeys k s).draws = s.draws := rfl

/-! ## resetWith and resetCommandWith: only memory depends on the font -/

@[simp] theorem resetWith_v (t : FontTable) : (State.resetWith t).v = State.reset.v := rfl
@[simp] theorem resetWith_pc (t : FontTable) : (State.resetWith t).pc = State.reset.pc := rfl
@[simp] theorem resetWith_i (t : FontTable) : (State.resetWith t).i = State.reset.i := rfl
@[simp] theorem resetWith_stack (t : FontTable) : (State.resetWith t).stack = State.reset.stack := rfl
@[simp] theorem resetWith_sp (t : FontTable) : (State.resetWith t).sp = State.reset.sp := rfl
@[simp] theorem resetWith_screen (t : FontTable) : (State.resetWith t).screen = State.reset.screen := rfl
@[simp] theorem resetWith_keys (t : FontTable) : (State.resetWith t).keys = State.reset.keys := rfl
@[simp] theorem resetWith_dt (t : FontTable) : (State.resetWith t).dt = State.reset.dt := rfl
@[simp] theorem resetWith_st (t : FontTable) : (State.resetWith t).st = State.reset.st := rfl
@[simp] theorem resetWith_cycle (t : FontTable) : (State.resetWith t).cycle = State.reset.cycle := rfl
@[simp] theorem resetWith_draws (t : FontTable) : (State.resetWith t).draws = State.reset.draws := rfl

@[simp] theorem resetCommandWith_v (t : FontTable) (s : State) : (resetCommandWith t s).v = (State.resetWith t).v := rfl
@[simp] theorem resetCommandWith_pc (t : FontTable) (s : State) : (resetCommandWith t s).pc = (State.resetWith t).pc := rfl
@[simp] theorem resetCommandWith_i (t : FontTable) (s : State) : (resetCommandWith t s).i = (State.resetWith t).i := rfl
@[simp] theorem resetCommandWith_stack (t : FontTable) (s : State) : (resetCommandWith t s).stack = (State.resetWith t).stack := rfl
@[simp] theorem resetCommandWith_sp (t : FontTable) (s : State) : (resetCommandWith t s).sp = (State.resetWith t).sp := rfl
@[simp] theorem resetCommandWith_mem (t : FontTable) (s : State) : (resetCommandWith t s).mem = (State.resetWith t).mem := rfl
@[simp] theorem resetCommandWith_screen (t : FontTable) (s : State) : (resetCommandWith t s).screen = (State.resetWith t).screen := rfl
@[simp] theorem resetCommandWith_keys (t : FontTable) (s : State) : (resetCommandWith t s).keys = (State.resetWith t).keys := rfl
@[simp] theorem resetCommandWith_dt (t : FontTable) (s : State) : (resetCommandWith t s).dt = (State.resetWith t).dt := rfl
@[simp] theorem resetCommandWith_st (t : FontTable) (s : State) : (resetCommandWith t s).st = (State.resetWith t).st := rfl
@[simp] theorem resetCommandWith_cycle (t : FontTable) (s : State) : (resetCommandWith t s).cycle = (State.resetWith t).cycle := rfl
@[simp] theorem resetCommandWith_draws (t : FontTable) (s : State) : (resetCommandWith t s).draws = s.draws := rfl

end Sys2Proof.Machine
end

