-- ==== Sys2Proof/Laws/Memory.lean ====
section
/-! SUPPORT. What memory operations do: read after write, the bytes of a span, and that every operation keeps the
canonical form. -/

namespace Sys2Proof.Machine

theorem Memory.find_put (x a : Nat) (b : Byte) (cs : List Host.Cell) :
    Memory.find x (Memory.put a b cs) = if x = a then some b else Memory.find x cs := by
  induction cs with
  | nil =>
    by_cases h : a = x
    · simp [Memory.put, Memory.find, h]
    · simp [Memory.put, Memory.find, h, Ne.symm h]
  | cons c cs ih =>
    unfold Memory.put
    split
    · by_cases h : a = x
      · simp [Memory.find, h]
      · simp [Memory.find, h, Ne.symm h]
    · split
      · rename_i _ h1
        subst h1
        by_cases h : c.1 = x
        · simp [Memory.find, h]
        · simp [Memory.find, h, Ne.symm h]
      · simp only [Memory.find, ih]
        by_cases h : c.1 = x
        · subst h
          rename_i h1
          simp [Ne.symm h1]
        · simp [h]

theorem Memory.find_drop (x a : Nat) (cs : List Host.Cell) :
    Memory.find x (Memory.drop a cs) = if x = a then none else Memory.find x cs := by
  induction cs with
  | nil => simp [Memory.drop, Memory.find]
  | cons c cs ih =>
    unfold Memory.drop
    split
    · rename_i h
      simp only [ih, Memory.find]
      by_cases hx : x = a
      · simp [hx]
      · simp [hx, h, Ne.symm hx]
    · rename_i h
      simp only [Memory.find, ih]
      by_cases hx : x = a
      · subst hx; simp [h]
      · simp [hx]

/-- Read after write (20_memory.md R52, R53). -/
theorem Memory.read_write (m : Memory) (a x : Nat) (b : Byte) :
    (m.write a b).read x = if x = a then b else m.read x := by
  unfold Memory.write
  split
  · rename_i h
    by_cases hx : x = a <;> simp [Memory.read, Memory.find_drop, hx, h]
  · by_cases hx : x = a <;> simp [Memory.read, Memory.find_put, hx]

@[simp] theorem Memory.length_readBytes (m : Memory) (a n : Nat) : (m.readBytes a n).length = n := by
  induction n generalizing a with
  | zero => rfl
  | succ n ih => simp [Memory.readBytes, ih]

/-- Byte `k` of a span is the byte at `a + k`. -/
theorem Memory.getElem_readBytes (m : Memory) (a n k : Nat) (h : k < (m.readBytes a n).length) :
    (m.readBytes a n)[k] = m.read (a + k) := by
  induction n generalizing a k with
  | zero => simp at h
  | succ n ih =>
    cases k with
    | zero => simp [Memory.readBytes]
    | succ k => simp only [Memory.readBytes, List.getElem_cons_succ, ih]; congr 1; omega

/-- Read after a span write: the bytes inside the span are the ones written, every other address reads as before. -/
theorem Memory.read_writeBytes (m : Memory) (a x : Nat) (bs : List Byte) :
    (m.writeBytes a bs).read x =
      if h : a ≤ x ∧ x < a + bs.length then bs[x - a]'(by omega) else m.read x := by
  induction bs generalizing m a with
  | nil => simp [Memory.writeBytes]
  | cons b bs ih =>
    simp only [Memory.writeBytes, ih, Memory.read_write, List.length_cons]
    by_cases h1 : x = a
    · subst h1
      simp
    · by_cases h2 : a + 1 ≤ x ∧ x < a + 1 + bs.length
      · have h3 : a ≤ x ∧ x < a + (bs.length + 1) := by omega
        have h4 : x - a = (x - (a + 1)) + 1 := by omega
        simp [h2, h3, h4]
      · have h3 : ¬ (a ≤ x ∧ x < a + (bs.length + 1)) := by omega
        rw [dif_neg h2, dif_neg h3, if_neg h1]

/-- Outside the written span every address reads as before. -/
theorem Memory.read_writeBytes_outside (m : Memory) (a x : Nat) (bs : List Byte) (h : x < a ∨ a + bs.length ≤ x) :
    (m.writeBytes a bs).read x = m.read x := by
  rw [Memory.read_writeBytes, dif_neg (by omega)]

/-- Byte `k` of what was written reads at `a + k`. -/
theorem Memory.read_writeBytes_inside (m : Memory) (a k : Nat) (bs : List Byte) (h : k < bs.length) :
    (m.writeBytes a bs).read (a + k) = bs[k] := by
  rw [Memory.read_writeBytes, dif_pos (by omega)]
  congr 1
  omega

/-- A span reads back as the bytes written to it. -/
theorem Memory.readBytes_writeBytes (m : Memory) (a : Nat) (bs : List Byte) :
    (m.writeBytes a bs).readBytes a bs.length = bs := by
  apply List.ext_getElem (by simp)
  intro k h1 h2
  rw [Memory.getElem_readBytes, Memory.read_writeBytes_inside]

/-! ## The canonical form -/

theorem Memory.wfFrom_mono {lo lo' : Nat} {cs : List Host.Cell} (h : lo' ≤ lo) (hw : Memory.wfFrom lo cs = true) :
    Memory.wfFrom lo' cs = true := by
  cases cs with
  | nil => rfl
  | cons c cs =>
    simp only [Memory.wfFrom, Bool.and_eq_true, decide_eq_true_eq] at hw ⊢
    exact ⟨⟨⟨by omega, hw.1.1.2⟩, hw.1.2⟩, hw.2⟩

theorem Memory.wfFrom_put {lo a : Nat} {b : Byte} {cs : List Host.Cell} (hlo : lo ≤ a) (ha : a < Config.memSize)
    (hb : b ≠ resetByte a) (hw : Memory.wfFrom lo cs = true) : Memory.wfFrom lo (Memory.put a b cs) = true := by
  induction cs generalizing lo with
  | nil => simp only [Memory.put, Memory.wfFrom]; simp [hlo, ha, hb]
  | cons c cs ih =>
    simp only [Memory.wfFrom, Bool.and_eq_true, decide_eq_true_eq] at hw
    obtain ⟨⟨⟨h1, h2⟩, h3⟩, h4⟩ := hw
    unfold Memory.put
    split
    · rename_i hlt
      simp only [Memory.wfFrom, Bool.and_eq_true, decide_eq_true_eq]
      exact ⟨⟨⟨hlo, ha⟩, by simpa using hb⟩, ⟨⟨by omega, h2⟩, h3⟩, h4⟩
    · split
      · rename_i _ heq
        simp only [Memory.wfFrom, Bool.and_eq_true, decide_eq_true_eq]
        exact ⟨⟨⟨hlo, ha⟩, by simpa using hb⟩, heq ▸ h4⟩
      · simp only [Memory.wfFrom, Bool.and_eq_true, decide_eq_true_eq]
        exact ⟨⟨⟨h1, h2⟩, h3⟩, ih (by omega) h4⟩

theorem Memory.wfFrom_drop {lo a : Nat} {cs : List Host.Cell} (hw : Memory.wfFrom lo cs = true) :
    Memory.wfFrom lo (Memory.drop a cs) = true := by
  induction cs generalizing lo with
  | nil => rfl
  | cons c cs ih =>
    simp only [Memory.wfFrom, Bool.and_eq_true, decide_eq_true_eq] at hw
    obtain ⟨⟨⟨h1, h2⟩, h3⟩, h4⟩ := hw
    unfold Memory.drop
    split
    · exact Memory.wfFrom_mono (by omega) (ih h4)
    · simp only [Memory.wfFrom, Bool.and_eq_true, decide_eq_true_eq]
      exact ⟨⟨⟨h1, h2⟩, h3⟩, ih h4⟩

/-- A write inside memory keeps the canonical form. -/
theorem Memory.wf_write {m : Memory} {a : Nat} (b : Byte) (ha : a < Config.memSize) (hw : m.wf = true) :
    (m.write a b).wf = true := by
  unfold Memory.write
  split
  · exact Memory.wfFrom_drop hw
  · exact Memory.wfFrom_put (Nat.zero_le a) ha ‹_› hw

/-- A span write inside memory keeps the canonical form. -/
theorem Memory.wf_writeBytes {m : Memory} {a : Nat} {bs : List Byte} (ha : a + bs.length ≤ Config.memSize)
    (hw : m.wf = true) : (m.writeBytes a bs).wf = true := by
  induction bs generalizing m a with
  | nil => exact hw
  | cons b bs ih =>
    simp only [List.length_cons] at ha
    exact ih (by omega) (Memory.wf_write b (by omega) hw)

theorem Memory.wf_reset : State.reset.mem.wf = true := rfl

/-- The reset memory reads as the reset contents (10_state.md R34). -/
@[simp] theorem read_reset (a : Nat) : State.reset.mem.read a = resetByte a := rfl

/-- The memory after `reset` under any `FONT`: the font at 0..79 and zero above (R33, R34). -/
theorem read_resetWith (f : FontTable) (a : Nat) :
    (State.resetWith f).mem.read a = if h : a < 80 then f[a] else 0 := by
  show (State.reset.mem.writeBytes 0 f.toList).read a = _
  rw [Memory.read_writeBytes]
  by_cases h : a < 80
  · rw [dif_pos (by simpa using h), dif_pos h]
    simp
  · rw [dif_neg (by simpa using h), dif_neg h, read_reset, resetByte,
      List.getD_eq_default _ _ (by show 80 ≤ a; omega)]

/-- The reset memory is canonical under any `FONT`. -/
theorem wf_resetWith (f : FontTable) : (State.resetWith f).mem.wf = true :=
  Memory.wf_writeBytes (by rw [Vector.length_toList]; decide) Memory.wf_reset

/-- The default `FONT` gives `State.reset`. -/
theorem resetWith_fontTable : State.resetWith fontTable = State.reset := by
  have h : State.reset.mem.writeBytes 0 fontTable.toList = State.reset.mem := by decide
  rw [State.resetWith, h]

end Sys2Proof.Machine
end

