-- ==== Sys2Proof/Laws/Registers.lean ====
section
/-! SUPPORT. What the register, stack and key operations do. -/

namespace Sys2Proof.Machine

/-! ## Reading a register after an update -/

/-- Reading a register depends on the registers alone. -/
theorem readV_congr {s t : State} (h : t.v = s.v) (r : Reg) : readV t r = readV s r := by simp only [readV, h]

/-- A record update that leaves the registers alone leaves every register's reading alone. -/
@[simp] theorem readV_mk (s : State) (pc i : Word) (stack : Vector Word Config.stackDepth)
    (sp : Fin (Config.stackDepth + 1)) (mem : Memory) (screen : Screen) (keys : Word) (dt st : Byte) (cycle draws : Nat)
    (r : Reg) : readV ⟨s.v, pc, i, stack, sp, mem, screen, keys, dt, st, cycle, draws⟩ r = readV s r := rfl

@[simp] theorem readV_writeV (s : State) (x r : Reg) (b : Byte) :
    readV (writeV s x b) r = if r = x then b else readV s r := by
  simp only [readV, writeV_v, Vector.getElem_set, Fin.ext_iff, eq_comm]

@[simp] theorem readV_writeResultThenFlag (s : State) (x r : Reg) (b f : Byte) :
    readV (writeResultThenFlag s x b f) r = if r = flagReg then f else if r = x then b else readV s r := by
  simp only [writeResultThenFlag, readV_writeV]

@[simp] theorem readV_loadRegistersUpTo (s : State) (x r : Reg) :
    readV (loadRegistersUpTo s x) r = if r.val ≤ x.val then s.mem.read (s.i.toNat + r.val) else readV s r := by
  simp only [readV, loadRegistersUpTo_v, Vector.getElem_ofFn]

@[simp] theorem readV_countDraw (s : State) (r : Reg) : readV (countDraw s) r = readV s r := rfl
@[simp] theorem readV_advancePc (s : State) (r : Reg) : readV (advancePc s) r = readV s r := rfl
@[simp] theorem readV_setPc (s : State) (t : Word) (r : Reg) : readV (setPc s t) r = readV s r := rfl
@[simp] theorem readV_skipNextIf (c : Bool) (s : State) (r : Reg) : readV (skipNextIf c s) r = readV s r := rfl
@[simp] theorem readV_storeAtIndex (s : State) (bs : List Byte) (r : Reg) : readV (storeAtIndex s bs) r = readV s r := rfl
@[simp] theorem readV_updateTimersWith (n : Nat) (s : State) (r : Reg) : readV (updateTimersWith n s) r = readV s r := rfl

/-- The registers StoreRegisters moves: `x + 1` of them, register `k` in place `k`. -/
@[simp] theorem length_registersUpTo (s : State) (x : Reg) : (registersUpTo s x).length = x.val + 1 := by
  simp only [registersUpTo, List.length_take, Vector.length_toList, Config.numRegs]; omega

theorem getElem_registersUpTo (s : State) (x k : Reg) (h : k.val < (registersUpTo s x).length) :
    (registersUpTo s x)[k.val] = readV s k := by
  simp only [registersUpTo, List.getElem_take, Vector.getElem_toList, readV]

/-! ## The stack -/

/-- Everything `pushPc` can do. -/
theorem pushPc_cases (s : State) :
    (∃ h : s.sp.val < 32, pushPc s =
      .ok { s with stack := s.stack.set s.sp.val s.pc, sp := ⟨s.sp.val + 1, Nat.succ_lt_succ h⟩ }) ∨
    (s.sp.val = 32 ∧ pushPc s = .error .callStackDepthExceeded) := by
  by_cases h : s.sp.val < 32
  · exact .inl ⟨h, by simp only [pushPc, Config.stackDepth, h, dif_pos]⟩
  · exact .inr ⟨by have := s.sp.isLt; simp only [Config.stackDepth] at this; omega,
      by simp only [pushPc, Config.stackDepth, h, dif_neg, not_false_iff]⟩

/-- Everything `popPc` can do. -/
theorem popPc_cases (s : State) :
    (∃ k : Fin 32, s.sp.val = k.val + 1 ∧
      popPc s = .ok { s with sp := ⟨k.val, Nat.lt_succ_of_lt k.isLt⟩, pc := s.stack[k.val] }) ∨
    (s.sp.val = 0 ∧ popPc s = .error .callStackEmpty) := by
  by_cases h : 0 < s.sp.val
  · refine .inl ⟨⟨s.sp.val - 1, ?_⟩, ?_, ?_⟩
    · have := s.sp.isLt; simp only [Config.stackDepth] at this; omega
    · simp only; omega
    · simp only [popPc, h, dif_pos]
  · exact .inr ⟨by omega, by simp only [popPc, h, dif_neg, not_false_iff]⟩

/-! ## Keys -/

/-- Everything `keyOperand` can do. -/
theorem keyOperand_cases (s : State) (x : Reg) :
    (∃ k : Fin 16, k.val = (readV s x).toNat ∧ keyOperand s x = .ok k) ∨
    (15 < (readV s x).toNat ∧ keyOperand s x = .error (.invalidInputKey (readV s x))) := by
  by_cases h : (readV s x).toNat < 16
  · exact .inl ⟨⟨_, h⟩, rfl, by simp only [keyOperand, Config.numKeys, h, dif_pos]⟩
  · exact .inr ⟨by omega, by simp only [keyOperand, Config.numKeys, h, dif_neg, not_false_iff]⟩

/-- Everything `lowestHeldKey` can do: the least held key, or none when `KEYS` is 0. -/
theorem lowestHeldKey_cases (s : State) :
    (∃ k : Fin 16, lowestHeldKey s = some k ∧ keyHeld s k = true ∧ ∀ j : Fin 16, j.val < k.val → keyHeld s j = false) ∨
    (s.keys = 0 ∧ lowestHeldKey s = none) := by
  unfold lowestHeldKey
  cases h : (List.finRange Config.numKeys).find? (keyHeld s) with
  | some k =>
    refine .inl ⟨k, rfl, List.find?_some h, fun j hj => ?_⟩
    obtain ⟨_, as, bs, hsplit, hall⟩ := List.find?_eq_some_iff_append.1 h
    have hpos : (List.finRange Config.numKeys)[as.length]? = some k := by rw [hsplit]; simp
    have hk : as.length = k.val := by
      have := List.getElem?_eq_some_iff.1 hpos
      obtain ⟨hl, he⟩ := this
      simp only [List.getElem_finRange] at he
      rw [← he]; rfl
    have hj2 : j.val < as.length := by omega
    have hmem : j ∈ as := by
      have hj3 : (List.finRange Config.numKeys)[j.val]? = some j := by
        rw [List.getElem?_eq_some_iff]
        exact ⟨by simp [Config.numKeys], by simp⟩
      rw [hsplit, List.getElem?_append_left hj2] at hj3
      exact List.mem_of_getElem? hj3
    simpa using hall j hmem
  | none =>
    refine .inr ⟨?_, rfl⟩
    apply BitVec.eq_of_getLsbD_eq
    intro i hi
    have := List.find?_eq_none.1 h ⟨i, hi⟩ (List.mem_finRange _)
    simpa [keyHeld] using this

end Sys2Proof.Machine
end

