-- ==== Sys2Proof/Laws/Step.lean ====
section
/-! SUPPORT. What a step can do, said once: the outcome operations, the fetch, and the cases of a step. -/

namespace Sys2Proof.Machine

/-! ## Outcomes -/

theorem thenUpdate_eq_next {r : Host.Outcome State Fault Refusal} {f : State → State} {u : State} :
    thenUpdate r f = .next u ↔ ∃ t, r = .next t ∧ u = f t := by
  cases r <;> simp [thenUpdate, eq_comm]

theorem thenUpdate_eq_fault {r : Host.Outcome State Fault Refusal} {f : State → State} {e : Fault} :
    thenUpdate r f = .fault e ↔ r = .fault e := by
  cases r <;> simp [thenUpdate]

theorem thenUpdate_eq_refused {r : Host.Outcome State Fault Refusal} {f : State → State} {q : Refusal} :
    thenUpdate r f = .refused q ↔ r = .refused q := by
  cases r <;> simp [thenUpdate]

/-- Everything `withSpan` can do (44_index_memory.md R160). -/
theorem withSpan_cases (s : State) (len : Nat) (t : State) :
    (s.i.toNat + len ≤ 4096 ∧ withSpan s len t = .next t) ∨
    (4096 < s.i.toNat + len ∧ withSpan s len t = .fault .memoryAccessError) := by
  by_cases h : 4096 < s.i.toNat + len
  · exact .inr ⟨h, by simp only [withSpan, Config.memSize, h, if_pos, raise]⟩
  · exact .inl ⟨by omega, by simp only [withSpan, Config.memSize, gt_iff_lt, h, if_neg, not_false_iff]⟩

/-! ## The fetch -/

theorem pcOutOfBounds_iff (s : State) : pcOutOfBounds s = true ↔ 4096 ≤ s.pc.toNat + 1 := by
  simp only [pcOutOfBounds, Config.memSize, decide_eq_true_eq, ge_iff_le]

theorem fetchOpcode_toNat (s : State) :
    (fetchOpcode s).toNat = (s.mem.read s.pc.toNat).toNat * 256 + (s.mem.read (s.pc.toNat + 1)).toNat :=
  opcodeOf_toNat _ _

/-- What `Fetches` says in the operations of the step. -/
theorem fetches_iff (s : State) (op : Word) : Fetches s op ↔ pcOutOfBounds s = false ∧ fetchOpcode s = op := by
  rw [Fetches, ← Bool.not_eq_true, pcOutOfBounds_iff, BitVec.toNat_eq, fetchOpcode_toNat]
  constructor
  · rintro ⟨h1, h2⟩; exact ⟨by omega, h2.symm⟩
  · rintro ⟨h1, h2⟩; exact ⟨by omega, h2.symm⟩

theorem fetches_self {s : State} (h : s.pc.toNat + 1 < 4096) : Fetches s (fetchOpcode s) :=
  ⟨h, fetchOpcode_toNat s⟩

/-- The two bytes an address pair holds, after a write of one opcode there, fetch as that opcode. -/
theorem fetchOpcode_withFetchWord (s : State) (nbits w : Nat) (h : s.pc.toNat + 1 < 4096) :
    fetchOpcode (s.withFetchWord nbits w) = BitVec.ofNat 16 (w % 2 ^ nbits) := by
  have hb : pcOutOfBounds s = false := by rw [← Bool.not_eq_true, pcOutOfBounds_iff]; omega
  simp only [State.withFetchWord, placeAtPc, hb, Bool.false_eq_true, if_false, fetchOpcode, wordBytes, Memory.writeBytes,
    Memory.read_write, if_true]
  rw [if_neg (by omega)]
  exact opcodeOf_wordBytes _

/-! ## The decoder's error -/

theorem decodeWord_error {op : Word} {e : DecodeError} (h : decodeWord op = .error e) : e = .invalidInstruction op := by
  unfold decodeWord decodeWordWith at h
  split at h <;> try (cases h)
  · unfold decodeClass8 at h
    split at h <;> cases h
    rfl
  · unfold decodeClassE at h
    repeat' (split at h)
    all_goals cases h
    rfl
  · unfold decodeClassF at h
    repeat' (split at h)
    all_goals cases h
    rfl

/-! ## The step -/

theorem blocks_iff (i : Instr) (s : State) : blocks i s = true ↔ (∃ x, i = .waitForKey x) ∧ s.keys = 0 := by
  cases i <;> simp [blocks]

/-- Everything a step can do (40_step_cycle.md R108). -/
theorem stepWith_cases (n : Nat) (s : State) :
    (4096 ≤ s.pc.toNat + 1 ∧ stepWith n s = .fault (.programCounterOutOfBounds s.pc)) ∨
    (∃ op, Fetches s op ∧ decodeWord op = .error (.invalidInstruction op) ∧
      stepWith n s = .fault (.invalidInstruction op)) ∨
    (∃ op i, Fetches s op ∧ decodeWord op = .ok i ∧ blocks i s = true ∧ stepWith n s = .next s) ∨
    (∃ op i, Fetches s op ∧ decodeWord op = .ok i ∧ blocks i s = false ∧
      stepWith n s = thenUpdate (exec i (advancePc s)) (updateTimersWith n)) := by
  by_cases h : pcOutOfBounds s = true
  · exact .inl ⟨(pcOutOfBounds_iff s).1 h, by simp only [stepWith, h, if_true, raise]⟩
  · have hf : Fetches s (fetchOpcode s) := (fetches_iff s _).2 ⟨by simpa using h, rfl⟩
    refine .inr ?_
    cases hd : decodeWord (fetchOpcode s) with
    | error e =>
      have he := decodeWord_error hd
      subst he
      exact .inl ⟨_, hf, hd, by simp only [stepWith, h, hd, raise, faultOfDecode, Bool.false_eq_true, if_false]⟩
    | ok i =>
      cases hb : blocks i s with
      | true => exact .inr (.inl ⟨_, i, hf, hd, hb, by simp only [stepWith, h, hd, hb, Bool.false_eq_true, if_false, if_true]⟩)
      | false => exact .inr (.inr ⟨_, i, hf, hd, hb, by simp only [stepWith, h, hd, hb, Bool.false_eq_true, if_false]⟩)

/-- The step of a state whose opcode decodes and does not block. -/
theorem stepWith_eq (n : Nat) {s : State} {op : Word} {i : Instr} (hf : Fetches s op) (hd : decodeWord op = .ok i)
    (hb : blocks i s = false) : stepWith n s = thenUpdate (exec i (advancePc s)) (updateTimersWith n) := by
  obtain ⟨h1, h2⟩ := (fetches_iff s op).1 hf
  simp only [stepWith, h1, h2, hd, hb, Bool.false_eq_true, if_false]

/-- The step of a state whose opcode decodes to an instruction that blocks. -/
theorem stepWith_blocked (n : Nat) {s : State} {op : Word} {i : Instr} (hf : Fetches s op)
    (hd : decodeWord op = .ok i) (hb : blocks i s = true) : stepWith n s = .next s := by
  obtain ⟨h1, h2⟩ := (fetches_iff s op).1 hf
  simp only [stepWith, h1, h2, hd, hb, Bool.false_eq_true, if_false, if_true]

/-! ## The host's commands -/

/-- Only `reset()` depends on the parameter `FONT` (10_state.md R33). -/
theorem runCommandWith_eq (f : FontTable) {c : Command} (h : c ≠ .reset) (s : State) :
    runCommandWith f c s = runCommand c s := by
  cases c <;> first | rfl | exact absurd rfl h

/-! ## The host's run -/

theorem run_succ_of_next (k : Nat) {s t : State} (h : step s = .next t) :
    Host.Core.run Sys2Proof.core (k + 1) s = Host.Core.run Sys2Proof.core k t := by
  have h' : Sys2Proof.core.step s = .next t := h
  simp only [Host.Core.run, h']

theorem run_succ_of_fault (k : Nat) {s : State} {e : Fault} (h : step s = .fault e) :
    Host.Core.run Sys2Proof.core (k + 1) s = .fault e := by
  have h' : Sys2Proof.core.step s = .fault e := h
  simp only [Host.Core.run, h']

theorem run_succ_of_refused (k : Nat) {s : State} {q : Refusal} (h : step s = .refused q) :
    Host.Core.run Sys2Proof.core (k + 1) s = .refused q := by
  have h' : Sys2Proof.core.step s = .refused q := h
  simp only [Host.Core.run, h']

/-- A run that has met an error stays at it (60_exceptions.md R207, decision D21). -/
theorem run_fault_stays {k : Nat} {s : State} {e : Fault} (h : Host.Core.run Sys2Proof.core k s = .fault e) (j : Nat) :
    Host.Core.run Sys2Proof.core (k + j) s = .fault e := by
  induction k generalizing s with
  | zero => cases h
  | succ k ih =>
    rw [show k + 1 + j = (k + j) + 1 by omega]
    cases hs : step s with
    | next t => rw [run_succ_of_next _ hs] at h ⊢; exact ih h
    | fault f => rw [run_succ_of_fault _ hs] at h ⊢; exact h
    | refused q => rw [run_succ_of_refused _ hs] at h; cases h

/-- A run of `k` steps is safe exactly when the host's run answers a next state. -/
theorem safeFor_iff_run (k : Nat) (s : State) : SafeFor k s ↔ ∃ t : State, Host.Core.run Sys2Proof.core k s = .next t := by
  induction k generalizing s with
  | zero => exact ⟨fun _ => ⟨s, rfl⟩, fun _ => trivial⟩
  | succ k ih =>
    cases hs : step s with
    | next t => simp only [SafeFor, run_succ_of_next _ hs, ← ih, hs, Host.Outcome.next.injEq, exists_eq_left']
    | fault f => simp [SafeFor, run_succ_of_fault _ hs, hs]
    | refused q => simp [SafeFor, run_succ_of_refused _ hs, hs]

/-- The divider is at least 1 (00_scope.md R7). -/
theorem timerDivider_pos : 1 ≤ Config.timerDivider := by
  unfold Config.timerDivider Config.ticksPerSecond Config.timerHz
  omega

end Sys2Proof.Machine
end

