-- ==== Sys2Proof/Laws/Exec.lean ====
section
/-! SUPPORT. What the effects of stage 5 can end in, said once: every error of every instruction with its condition, and
that no effect is refused. -/

namespace Sys2Proof.Machine

/-- The condition under which the effect of an instruction raises an error, and the error: everything `exec` can fail
with (60_exceptions.md R204 to R206). -/
def raisedBy (i : Instr) (s : State) (e : Fault) : Prop :=
  match i with
  | .ret => e = .callStackEmpty ∧ s.sp.val = 0
  | .call _ => e = .callStackDepthExceeded ∧ s.sp.val = 32
  | .jumpRelative nnn => e = .memoryAccessError ∧ 4096 ≤ nnn.toNat + (readV s 0).toNat
  | .draw _ _ n => e = .memoryAccessError ∧ 4096 < s.i.toNat + n.val
  | .skipIfKeyPressed x => e = .invalidInputKey (readV s x) ∧ 15 < (readV s x).toNat
  | .skipIfKeyNotPressed x => e = .invalidInputKey (readV s x) ∧ 15 < (readV s x).toNat
  | .waitForKey _ => e = .expectingInputKey ∧ s.keys = 0
  | .storeBcd _ => e = .memoryAccessError ∧ 4096 < s.i.toNat + 3
  | .storeRegisters x => e = .memoryAccessError ∧ 4096 < s.i.toNat + (x.val + 1)
  | .loadRegisters x => e = .memoryAccessError ∧ 4096 < s.i.toNat + (x.val + 1)
  | .nop => False
  | .clearScreen => False
  | .jump _ => False
  | .skipIfEqualValue _ _ => False
  | .skipIfNotEqualValue _ _ => False
  | .skipIfEqualRegister _ _ => False
  | .loadValue _ _ => False
  | .addValue _ _ => False
  | .copy _ _ => False
  | .or _ _ => False
  | .and _ _ => False
  | .xor _ _ => False
  | .addRegister _ _ => False
  | .subtractVxVy _ _ => False
  | .shiftRight _ _ => False
  | .subtractVyVx _ _ => False
  | .shiftLeft _ _ => False
  | .skipIfNotEqualRegister _ _ => False
  | .setIndex _ => False
  | .random _ _ => False
  | .readDelayTimer _ => False
  | .setDelayTimer _ => False
  | .setSoundTimer _ => False
  | .addToIndex _ => False
  | .selectCharacter _ => False

theorem execSelectCharacter_eq (x : Reg) (s : State) :
    execSelectCharacter x s = .next { s with i := BitVec.ofNat 16 (glyphAddress s x) } := by
  have := (readV s x).isLt
  rw [execSelectCharacter, if_neg]
  simp only [glyphAddress, Config.fontGlyphBytes, Config.memSize]
  omega

/-- `withSpan` fails exactly when the span passes 4096. -/
theorem withSpan_eq_fault {s t : State} {len : Nat} {e : Fault} :
    withSpan s len t = .fault e ↔ e = .memoryAccessError ∧ 4096 < s.i.toNat + len := by
  rcases withSpan_cases s len t with ⟨h1, h2⟩ | ⟨h1, h2⟩
  · simp only [h2, reduceCtorEq, false_iff]; omega
  · simp only [h2, Host.Outcome.fault.injEq, h1, and_true, eq_comm]

/-- `withSpan` goes on exactly when the span lies in memory. -/
theorem withSpan_eq_next {s t u : State} {len : Nat} :
    withSpan s len t = .next u ↔ u = t ∧ s.i.toNat + len ≤ 4096 := by
  rcases withSpan_cases s len t with ⟨h1, h2⟩ | ⟨h1, h2⟩
  · simp only [h2, Host.Outcome.next.injEq, h1, and_true, eq_comm]
  · simp only [h2, reduceCtorEq, false_iff]; omega

/-- The effect of an instruction fails exactly as `raisedBy` says. -/
theorem exec_eq_fault (i : Instr) (s : State) (e : Fault) : exec i s = .fault e ↔ raisedBy i s e := by
  cases i <;> simp only [exec, raisedBy]
  case ret =>
    rcases popPc_cases s with ⟨k, h1, h2⟩ | ⟨h1, h2⟩
    · simp [execRet, h2, h1]
    · simp [execRet, h2, h1, raise, eq_comm]
  case call n =>
    rcases pushPc_cases s with ⟨h1, h2⟩ | ⟨h1, h2⟩
    · simp only [execCall, h2, reduceCtorEq, false_iff]; omega
    · simp [execCall, h2, h1, raise, eq_comm]
  case jumpRelative n =>
    unfold execJumpRelative
    split <;> rename_i h <;> simp only [relativeTarget, Config.memSize, ge_iff_le] at h <;> simp [raise, h, eq_comm]
  case draw x y n => exact withSpan_eq_fault
  case skipIfKeyPressed x =>
    rcases keyOperand_cases s x with ⟨k, h1, h2⟩ | ⟨h1, h2⟩
    · simp only [execSkipIfKeyPressed, h2, reduceCtorEq, false_iff]; omega
    · simp [execSkipIfKeyPressed, h2, h1, raise, eq_comm]
  case skipIfKeyNotPressed x =>
    rcases keyOperand_cases s x with ⟨k, h1, h2⟩ | ⟨h1, h2⟩
    · simp only [execSkipIfKeyNotPressed, h2, reduceCtorEq, false_iff]; omega
    · simp [execSkipIfKeyNotPressed, h2, h1, raise, eq_comm]
  case waitForKey x =>
    rcases lowestHeldKey_cases s with ⟨k, h1, h2, -⟩ | ⟨h1, h2⟩
    · have : s.keys ≠ 0 := by rintro h; simp [keyHeld, h] at h2
      simp only [execWaitForKey, h1, reduceCtorEq, false_iff, not_and]
      exact fun _ => this
    · simp [execWaitForKey, h2, h1, raise, eq_comm]
  case selectCharacter x => simp [execSelectCharacter_eq]
  case storeBcd x => exact withSpan_eq_fault
  case storeRegisters x => exact withSpan_eq_fault
  case loadRegisters x => exact withSpan_eq_fault
  all_goals refine iff_of_false (fun h => ?_) not_false; cases h

/-- No effect is refused. -/
theorem exec_not_refused (i : Instr) (s : State) (q : Refusal) : exec i s ≠ .refused q := by
  intro h
  cases i <;> simp only [exec] at h
  all_goals try (cases h)
  case ret =>
    rcases popPc_cases s with ⟨k, h1, h2⟩ | ⟨h1, h2⟩ <;> simp [execRet, h2, raise] at h
  case call n =>
    rcases pushPc_cases s with ⟨h1, h2⟩ | ⟨h1, h2⟩ <;> simp [execCall, h2, raise] at h
  case jumpRelative n =>
    unfold execJumpRelative at h
    split at h <;> cases h
  case draw x y n =>
    unfold execDraw withSpan at h
    split at h <;> cases h
  case skipIfKeyPressed x =>
    rcases keyOperand_cases s x with ⟨k, h1, h2⟩ | ⟨h1, h2⟩ <;> simp [execSkipIfKeyPressed, h2, raise] at h
  case skipIfKeyNotPressed x =>
    rcases keyOperand_cases s x with ⟨k, h1, h2⟩ | ⟨h1, h2⟩ <;> simp [execSkipIfKeyNotPressed, h2, raise] at h
  case waitForKey x =>
    unfold execWaitForKey at h
    split at h <;> cases h
  case selectCharacter x =>
    unfold execSelectCharacter at h
    split at h <;> cases h
  case storeBcd x =>
    unfold execStoreBcd withSpan at h
    split at h <;> cases h
  case storeRegisters x =>
    unfold execStoreRegisters withSpan at h
    split at h <;> cases h
  case loadRegisters x =>
    unfold execLoadRegisters withSpan at h
    split at h <;> cases h

/-- An effect completes exactly when it raises nothing. -/
theorem exec_completes_iff (i : Instr) (s : State) : (∃ t, exec i s = .next t) ↔ ∀ e, ¬ raisedBy i s e := by
  constructor
  · rintro ⟨t, ht⟩ e he
    rw [(exec_eq_fault i s e).2 he] at ht
    cases ht
  · intro h
    cases hx : exec i s with
    | next t => exact ⟨t, rfl⟩
    | fault e => exact absurd ((exec_eq_fault i s e).1 hx) (h e)
    | refused q => exact absurd hx (exec_not_refused i s q)

/-! ## The next state of the effects that can fail -/

/-- Call below depth 32 (41_flow.md R123). -/
theorem exec_call_eq (nnn : Addr) {s : State} (h : s.sp.val < 32) :
    exec (.call nnn) s = .next
      { s with pc := zextAddr nnn, stack := s.stack.set s.sp.val s.pc, sp := ⟨s.sp.val + 1, Nat.succ_lt_succ h⟩ } := by
  rcases pushPc_cases s with ⟨_, h2⟩ | ⟨h1, _⟩
  · show execCall nnn s = _
    simp only [execCall, h2, setPc]
  · omega

/-- Return from depth `k + 1` (R121). -/
theorem exec_ret_eq {s : State} (k : Fin 32) (h : s.sp.val = k.val + 1) :
    exec .ret s = .next { s with sp := ⟨k.val, Nat.lt_succ_of_lt k.isLt⟩, pc := s.stack[k.val] } := by
  rcases popPc_cases s with ⟨k', h1, h2⟩ | ⟨h1, _⟩
  · obtain rfl : k' = k := Fin.ext (by omega)
    show execRet s = _
    simp only [execRet, h2]
  · omega

/-- JumpRelative inside memory (R124). -/
theorem exec_jumpRelative_eq {nnn : Addr} {s : State} (h : nnn.toNat + (readV s 0).toNat < 4096) :
    exec (.jumpRelative nnn) s = .next { s with pc := BitVec.ofNat 16 (nnn.toNat + (readV s 0).toNat) } :=
  if_neg (Nat.not_le.2 h)

/-- The key skips on a register that names a key (46_keys_timers.md R181, R182). -/
theorem exec_keySkips_eq {x : Reg} {s : State} (k : Fin 16) (h : k.val = (readV s x).toNat) :
    exec (.skipIfKeyPressed x) s = .next (skipNextIf (keyHeld s k) s) ∧
    exec (.skipIfKeyNotPressed x) s = .next (skipNextIf (!(keyHeld s k)) s) := by
  rcases keyOperand_cases s x with ⟨k', h1, h2⟩ | ⟨h1, _⟩
  · obtain rfl : k' = k := Fin.ext (by omega)
    constructor
    · show execSkipIfKeyPressed x s = _
      simp only [execSkipIfKeyPressed, h2]
    · show execSkipIfKeyNotPressed x s = _
      simp only [execSkipIfKeyNotPressed, h2]
  · omega

/-- WaitForKey with a key held (R183). -/
theorem exec_waitForKey_eq (x : Reg) {s : State} (h : s.keys ≠ 0) :
    ∃ k : Fin 16, exec (.waitForKey x) s = .next (writeV s x (BitVec.ofNat 8 k.val)) ∧ keyHeld s k = true ∧
      ∀ j : Fin 16, j.val < k.val → keyHeld s j = false := by
  rcases lowestHeldKey_cases s with ⟨k, h1, h2, h3⟩ | ⟨h1, _⟩
  · refine ⟨k, ?_, h2, h3⟩
    show execWaitForKey x s = _
    simp only [execWaitForKey, h1]
  · exact absurd h1 h

/-- Draw with its span inside memory (45_display.md R172). -/
theorem exec_draw_eq (x y : Reg) {n : SpriteLen} {s : State} (h : s.i.toNat + n.val ≤ 4096) :
    exec (.draw x y n) s = .next (writeV
      { s with screen := (drawSprite s.screen (readV s x) (readV s y) (loadAtIndex s n.val)).1 } flagReg
      (collisionFlag (drawSprite s.screen (readV s x) (readV s y) (loadAtIndex s n.val)).2)) :=
  withSpan_eq_next.2 ⟨rfl, h⟩

/-- StoreBcd with its span inside memory (44_index_memory.md R164). -/
theorem exec_storeBcd_eq (x : Reg) {s : State} (h : s.i.toNat + 3 ≤ 4096) :
    exec (.storeBcd x) s = .next (storeAtIndex s (bcdDigits (readV s x))) :=
  withSpan_eq_next.2 ⟨rfl, h⟩

/-- StoreRegisters with its span inside memory (R166). -/
theorem exec_storeRegisters_eq {x : Reg} {s : State} (h : s.i.toNat + (x.val + 1) ≤ 4096) :
    exec (.storeRegisters x) s = .next (storeAtIndex s (registersUpTo s x)) :=
  withSpan_eq_next.2 ⟨rfl, h⟩

/-- LoadRegisters with its span inside memory (R167). -/
theorem exec_loadRegisters_eq {x : Reg} {s : State} (h : s.i.toNat + (x.val + 1) ≤ 4096) :
    exec (.loadRegisters x) s = .next (loadRegistersUpTo s x) :=
  withSpan_eq_next.2 ⟨rfl, h⟩

/-! ## The next state of every effect -/

/-- Everything `exec` can do when it answers a next state `t`, with the guard of the effects that can fail. -/
def completesAs (i : Instr) (s t : State) : Prop :=
  match i with
  | .nop => t = s
  | .clearScreen => t = { s with screen := blankScreen }
  | .ret => ∃ k : Fin 32, s.sp.val = k.val + 1 ∧
      t = { s with sp := ⟨k.val, Nat.lt_succ_of_lt k.isLt⟩, pc := s.stack[k.val] }
  | .jump nnn => t = setPc s (zextAddr nnn)
  | .call nnn => ∃ h : s.sp.val < 32, t =
      { s with pc := zextAddr nnn, stack := s.stack.set s.sp.val s.pc, sp := ⟨s.sp.val + 1, Nat.succ_lt_succ h⟩ }
  | .skipIfEqualValue x kk => t = skipNextIf (readV s x == kk) s
  | .skipIfNotEqualValue x kk => t = skipNextIf (readV s x != kk) s
  | .skipIfEqualRegister x y => t = skipNextIf (readV s x == readV s y) s
  | .loadValue x kk => t = writeV s x kk
  | .addValue x kk => t = writeResultThenFlag s x (readV s x + kk) (noCarryFlag (readV s x) kk)
  | .copy x y => t = writeV s x (readV s y)
  | .or x y => t = writeV s x (readV s x ||| readV s y)
  | .and x y => t = writeV s x (readV s x &&& readV s y)
  | .xor x y => t = writeV s x (readV s x ^^^ readV s y)
  | .addRegister x y => t = writeResultThenFlag s x (readV s x + readV s y) (carryFlag (readV s x) (readV s y))
  | .subtractVxVy x y => t = writeResultThenFlag s x (readV s x - readV s y) (noBorrowFlag (readV s x) (readV s y))
  | .shiftRight x _ => t = writeResultThenFlag s x (readV s x >>> 1) (lowBitFlag (readV s x))
  | .subtractVyVx x y => t = writeResultThenFlag s x (readV s y - readV s x) (noBorrowFlag (readV s y) (readV s x))
  | .shiftLeft x _ => t = writeResultThenFlag s x (readV s x <<< 1) (highBitFlag (readV s x))
  | .skipIfNotEqualRegister x y => t = skipNextIf (readV s x != readV s y) s
  | .setIndex nnn => t = { s with i := zextAddr nnn }
  | .jumpRelative nnn => nnn.toNat + (readV s 0).toNat < 4096 ∧
      t = { s with pc := BitVec.ofNat 16 (nnn.toNat + (readV s 0).toNat) }
  | .random x kk => t = writeV (countDraw s) x (Config.randomByte s.draws &&& kk)
  | .draw x y n => s.i.toNat + n.val ≤ 4096 ∧ t = writeV
      { s with screen := (drawSprite s.screen (readV s x) (readV s y) (loadAtIndex s n.val)).1 } flagReg
      (collisionFlag (drawSprite s.screen (readV s x) (readV s y) (loadAtIndex s n.val)).2)
  | .skipIfKeyPressed x => ∃ k : Fin 16, k.val = (readV s x).toNat ∧ t = skipNextIf (keyHeld s k) s
  | .skipIfKeyNotPressed x => ∃ k : Fin 16, k.val = (readV s x).toNat ∧ t = skipNextIf (!(keyHeld s k)) s
  | .readDelayTimer x => t = writeV s x s.dt
  | .waitForKey x => ∃ k : Fin 16, keyHeld s k = true ∧ t = writeV s x (BitVec.ofNat 8 k.val)
  | .setDelayTimer x => t = { s with dt := readV s x }
  | .setSoundTimer x => t = { s with st := readV s x }
  | .addToIndex x => t = { s with i := s.i + (readV s x).zeroExtend 16 }
  | .selectCharacter x => t = { s with i := BitVec.ofNat 16 (glyphAddress s x) }
  | .storeBcd x => s.i.toNat + 3 ≤ 4096 ∧ t = storeAtIndex s (bcdDigits (readV s x))
  | .storeRegisters x => s.i.toNat + (x.val + 1) ≤ 4096 ∧ t = storeAtIndex s (registersUpTo s x)
  | .loadRegisters x => s.i.toNat + (x.val + 1) ≤ 4096 ∧ t = loadRegistersUpTo s x

/-- An effect that answers a next state did what `completesAs` says. -/
theorem exec_next_inv {i : Instr} {s t : State} (h : exec i s = .next t) : completesAs i s t := by
  have hf : ∀ e, ¬ raisedBy i s e := (exec_completes_iff i s).1 ⟨t, h⟩
  cases i <;> simp only [completesAs] <;> simp only [raisedBy, not_and, forall_eq] at hf
  case ret =>
    have := s.sp.isLt
    simp only [Config.stackDepth] at this
    have hk : s.sp.val - 1 < 32 := by omega
    have hs : s.sp.val = (⟨s.sp.val - 1, hk⟩ : Fin 32).val + 1 := by simp only; omega
    rw [exec_ret_eq _ hs] at h
    exact ⟨_, hs, (Host.Outcome.next.inj h).symm⟩
  case call nnn =>
    have := s.sp.isLt
    simp only [Config.stackDepth] at this
    have hk : s.sp.val < 32 := by omega
    rw [exec_call_eq nnn hk] at h
    exact ⟨hk, (Host.Outcome.next.inj h).symm⟩
  case jumpRelative nnn =>
    have hk := Nat.not_le.1 hf
    rw [exec_jumpRelative_eq hk] at h
    exact ⟨hk, (Host.Outcome.next.inj h).symm⟩
  case draw x y n => exact (withSpan_eq_next.1 h).symm
  case skipIfKeyPressed x =>
    refine ⟨⟨(readV s x).toNat, by omega⟩, rfl, ?_⟩
    rw [(exec_keySkips_eq ⟨(readV s x).toNat, by omega⟩ rfl).1] at h
    exact (Host.Outcome.next.inj h).symm
  case skipIfKeyNotPressed x =>
    refine ⟨⟨(readV s x).toNat, by omega⟩, rfl, ?_⟩
    rw [(exec_keySkips_eq ⟨(readV s x).toNat, by omega⟩ rfl).2] at h
    exact (Host.Outcome.next.inj h).symm
  case waitForKey x =>
    obtain ⟨k, h1, h2, -⟩ := exec_waitForKey_eq x hf
    rw [h1] at h
    exact ⟨k, h2, (Host.Outcome.next.inj h).symm⟩
  case selectCharacter x =>
    have h' : execSelectCharacter x s = .next t := h
    rw [execSelectCharacter_eq] at h'
    exact (Host.Outcome.next.inj h').symm
  case storeBcd x => exact (withSpan_eq_next.1 h).symm
  case storeRegisters x => exact (withSpan_eq_next.1 h).symm
  case loadRegisters x => exact (withSpan_eq_next.1 h).symm
  all_goals exact (Host.Outcome.next.inj h).symm

/-! ## Small facts about operands and flags -/

theorem glyphAddress_eq (s : State) (x : Reg) : glyphAddress s x = (readV s x).toNat * 5 := rfl

@[simp] theorem flagByte_toNat (c : Bool) : (flagByte c).toNat = if c then 1 else 0 := by cases c <;> rfl

@[simp] theorem zextAddr_toNat (nnn : Addr) : (zextAddr nnn).toNat = nnn.toNat := by
  have := nnn.isLt
  simp only [zextAddr, BitVec.truncate_eq_setWidth, BitVec.toNat_setWidth]
  omega

/-- One less, floored at 0. -/
theorem countDown_toNat (b : Byte) : (countDown b).toNat = b.toNat - 1 := by
  unfold countDown
  split
  · simp [*]
  · rename_i h
    have : b.toNat ≠ 0 := by simpa [BitVec.toNat_eq] using h
    have := b.isLt
    rw [BitVec.toNat_sub]; simp; omega

end Sys2Proof.Machine
end

