-- ==== Sys2Proof/Laws/PerInstr.lean ====
section
/-! SUPPORT. Laws stated per instruction. `EncodesInRow`: the canonical opcode of an instruction lies in the row of R92's
mask-and-match table that bears the instruction's name, with every discarded bit 0 (30_encoding.md R88, R92). -/

namespace Sys2Proof.Laws

/-! ## The shape of each row -/

theorem selects_xkk (name : String) (ig : Word) (c : BitVec 4) (x : Reg) (kk : Byte) :
    OpcodeRow.selects ⟨name, 0xF000#16, packXKK c 0 0#8, ig⟩ (packXKK c x kk) = true := by
  have := kk.isLt
  simp only [OpcodeRow.selects, beq_iff_eq, BitVec.toNat_eq]
  rw [and_classMask_toNat, packXKK_toNat, packXKK_toNat]
  simp only [BitVec.toNat_ofNat, Fin.val_zero]
  omega

theorem selects_nnn (name : String) (ig : Word) (c : BitVec 4) (nnn : Addr) :
    OpcodeRow.selects ⟨name, 0xF000#16, packNNN c 0#12, ig⟩ (packNNN c nnn) = true := by
  have := nnn.isLt
  simp only [OpcodeRow.selects, beq_iff_eq, BitVec.toNat_eq]
  rw [and_classMask_toNat, packNNN_toNat, packNNN_toNat]
  simp only [BitVec.toNat_ofNat]
  omega

theorem selects_xy (name : String) (ig : Word) (c : BitVec 4) (x y : Reg) (n : BitVec 4) :
    OpcodeRow.selects ⟨name, 0xF000#16, packXYN c 0 0 0#4, ig⟩ (packXYN c x y n) = true := by
  have := n.isLt
  simp only [OpcodeRow.selects, beq_iff_eq, BitVec.toNat_eq]
  rw [and_classMask_toNat, packXYN_toNat, packXYN_toNat]
  simp only [BitVec.toNat_ofNat, Fin.val_zero]
  omega

theorem selects_xyn (name : String) (ig : Word) (c : BitVec 4) (x y : Reg) (n : BitVec 4) :
    OpcodeRow.selects ⟨name, 0xF00F#16, packXYN c 0 0 n, ig⟩ (packXYN c x y n) = true := by
  have := n.isLt
  simp only [OpcodeRow.selects, beq_iff_eq, BitVec.toNat_eq]
  rw [and_nibbleMask_toNat, packXYN_toNat, packXYN_toNat]
  simp only [Fin.val_zero]
  omega

theorem selects_x (name : String) (ig : Word) (c : BitVec 4) (x : Reg) (kk : Byte) :
    OpcodeRow.selects ⟨name, 0xF0FF#16, packXKK c 0 kk, ig⟩ (packXKK c x kk) = true := by
  have := kk.isLt
  simp only [OpcodeRow.selects, beq_iff_eq, BitVec.toNat_eq]
  rw [and_byteMask_toNat, packXKK_toNat, packXKK_toNat]
  simp only [Fin.val_zero]
  omega

/-- No bit of the low nibble is set in an opcode whose low nibble is 0. -/
theorem lowNibble_zero (c : BitVec 4) (x y : Reg) : packXYN c x y 0#4 &&& 0x000F#16 = 0#16 := by
  rw [BitVec.toNat_eq, BitVec.toNat_and, packXYN_toNat]
  show _ &&& (2 ^ 4 - 1) = 0
  rw [Nat.and_two_pow_sub_one_eq_mod]
  simp only [BitVec.toNat_ofNat]
  omega

/-! ## The family -/

/-- The row of `i`'s name selects `encode i`, and `encode i` has no discarded bit set. -/
def EncodesInRow.Statement (i : Instr) : Prop :=
  ∃ r ∈ opcodeRows classFBytes, r.mnemonic = i.mnemonic ∧ r.selects (encode i) = true ∧ encode i &&& r.ignored = 0

theorem EncodesInRow.nop : EncodesInRow.Statement .nop :=
  ⟨⟨"Nop", 0xF000, 0x0000, 0x0FFF⟩, by decide, rfl, rfl, rfl⟩

theorem EncodesInRow.clearScreen : EncodesInRow.Statement .clearScreen :=
  ⟨⟨"ClearScreen", 0xFFFF, 0x00E0, 0x0000⟩, by decide, rfl, rfl, rfl⟩

theorem EncodesInRow.ret : EncodesInRow.Statement .ret :=
  ⟨⟨"Return", 0xFFFF, 0x00EE, 0x0000⟩, by decide, rfl, rfl, rfl⟩

theorem EncodesInRow.jump (nnn : Addr) : EncodesInRow.Statement (.jump nnn) :=
  ⟨⟨"Jump", 0xF000, 0x1000, 0x0000⟩, by decide, rfl, selects_nnn _ _ 1 nnn, BitVec.and_zero⟩

theorem EncodesInRow.call (nnn : Addr) : EncodesInRow.Statement (.call nnn) :=
  ⟨⟨"Call", 0xF000, 0x2000, 0x0000⟩, by decide, rfl, selects_nnn _ _ 2 nnn, BitVec.and_zero⟩

theorem EncodesInRow.skipIfEqualValue (x : Reg) (kk : Byte) : EncodesInRow.Statement (.skipIfEqualValue x kk) :=
  ⟨⟨"SkipIfEqualValue", 0xF000, 0x3000, 0x0000⟩, by decide, rfl, selects_xkk _ _ 3 x kk, BitVec.and_zero⟩

theorem EncodesInRow.skipIfNotEqualValue (x : Reg) (kk : Byte) : EncodesInRow.Statement (.skipIfNotEqualValue x kk) :=
  ⟨⟨"SkipIfNotEqualValue", 0xF000, 0x4000, 0x0000⟩, by decide, rfl, selects_xkk _ _ 4 x kk, BitVec.and_zero⟩

theorem EncodesInRow.skipIfEqualRegister (x y : Reg) : EncodesInRow.Statement (.skipIfEqualRegister x y) :=
  ⟨⟨"SkipIfEqualRegister", 0xF000, 0x5000, 0x000F⟩, by decide, rfl, selects_xy _ _ 5 x y 0, lowNibble_zero 5 x y⟩

theorem EncodesInRow.loadValue (x : Reg) (kk : Byte) : EncodesInRow.Statement (.loadValue x kk) :=
  ⟨⟨"LoadValue", 0xF000, 0x6000, 0x0000⟩, by decide, rfl, selects_xkk _ _ 6 x kk, BitVec.and_zero⟩

theorem EncodesInRow.addValue (x : Reg) (kk : Byte) : EncodesInRow.Statement (.addValue x kk) :=
  ⟨⟨"AddValue", 0xF000, 0x7000, 0x0000⟩, by decide, rfl, selects_xkk _ _ 7 x kk, BitVec.and_zero⟩

theorem EncodesInRow.copy (x y : Reg) : EncodesInRow.Statement (.copy x y) :=
  ⟨⟨"Copy", 0xF00F, 0x8000, 0x0000⟩, by decide, rfl, selects_xyn _ _ 8 x y 0, BitVec.and_zero⟩

theorem EncodesInRow.or (x y : Reg) : EncodesInRow.Statement (.or x y) :=
  ⟨⟨"Or", 0xF00F, 0x8001, 0x0000⟩, by decide, rfl, selects_xyn _ _ 8 x y 1, BitVec.and_zero⟩

theorem EncodesInRow.and (x y : Reg) : EncodesInRow.Statement (.and x y) :=
  ⟨⟨"And", 0xF00F, 0x8002, 0x0000⟩, by decide, rfl, selects_xyn _ _ 8 x y 2, BitVec.and_zero⟩

theorem EncodesInRow.xor (x y : Reg) : EncodesInRow.Statement (.xor x y) :=
  ⟨⟨"Xor", 0xF00F, 0x8003, 0x0000⟩, by decide, rfl, selects_xyn _ _ 8 x y 3, BitVec.and_zero⟩

theorem EncodesInRow.addRegister (x y : Reg) : EncodesInRow.Statement (.addRegister x y) :=
  ⟨⟨"AddRegister", 0xF00F, 0x8004, 0x0000⟩, by decide, rfl, selects_xyn _ _ 8 x y 4, BitVec.and_zero⟩

theorem EncodesInRow.subtractVxVy (x y : Reg) : EncodesInRow.Statement (.subtractVxVy x y) :=
  ⟨⟨"SubtractVxVy", 0xF00F, 0x8005, 0x0000⟩, by decide, rfl, selects_xyn _ _ 8 x y 5, BitVec.and_zero⟩

theorem EncodesInRow.shiftRight (x y : Reg) : EncodesInRow.Statement (.shiftRight x y) :=
  ⟨⟨"ShiftRight", 0xF00F, 0x8006, 0x0000⟩, by decide, rfl, selects_xyn _ _ 8 x y 6, BitVec.and_zero⟩

theorem EncodesInRow.subtractVyVx (x y : Reg) : EncodesInRow.Statement (.subtractVyVx x y) :=
  ⟨⟨"SubtractVyVx", 0xF00F, 0x8007, 0x0000⟩, by decide, rfl, selects_xyn _ _ 8 x y 7, BitVec.and_zero⟩

theorem EncodesInRow.shiftLeft (x y : Reg) : EncodesInRow.Statement (.shiftLeft x y) :=
  ⟨⟨"ShiftLeft", 0xF00F, 0x800E, 0x0000⟩, by decide, rfl, selects_xyn _ _ 8 x y 14, BitVec.and_zero⟩

theorem EncodesInRow.skipIfNotEqualRegister (x y : Reg) : EncodesInRow.Statement (.skipIfNotEqualRegister x y) :=
  ⟨⟨"SkipIfNotEqualRegister", 0xF000, 0x9000, 0x000F⟩, by decide, rfl, selects_xy _ _ 9 x y 0, lowNibble_zero 9 x y⟩

theorem EncodesInRow.setIndex (nnn : Addr) : EncodesInRow.Statement (.setIndex nnn) :=
  ⟨⟨"SetIndex", 0xF000, 0xA000, 0x0000⟩, by decide, rfl, selects_nnn _ _ 10 nnn, BitVec.and_zero⟩

theorem EncodesInRow.jumpRelative (nnn : Addr) : EncodesInRow.Statement (.jumpRelative nnn) :=
  ⟨⟨"JumpRelative", 0xF000, 0xB000, 0x0000⟩, by decide, rfl, selects_nnn _ _ 11 nnn, BitVec.and_zero⟩

theorem EncodesInRow.random (x : Reg) (kk : Byte) : EncodesInRow.Statement (.random x kk) :=
  ⟨⟨"Random", 0xF000, 0xC000, 0x0000⟩, by decide, rfl, selects_xkk _ _ 12 x kk, BitVec.and_zero⟩

theorem EncodesInRow.draw (x y : Reg) (n : SpriteLen) : EncodesInRow.Statement (.draw x y n) :=
  ⟨⟨"Draw", 0xF000, 0xD000, 0x0000⟩, by decide, rfl, selects_xy _ _ 13 x y (BitVec.ofFin (w := 4) n), BitVec.and_zero⟩

theorem EncodesInRow.skipIfKeyPressed (x : Reg) : EncodesInRow.Statement (.skipIfKeyPressed x) :=
  ⟨⟨"SkipIfKeyPressed", 0xF0FF, 0xE09E, 0x0000⟩, by decide, rfl, selects_x _ _ 14 x 0x9e, BitVec.and_zero⟩

theorem EncodesInRow.skipIfKeyNotPressed (x : Reg) : EncodesInRow.Statement (.skipIfKeyNotPressed x) :=
  ⟨⟨"SkipIfKeyNotPressed", 0xF0FF, 0xE0A1, 0x0000⟩, by decide, rfl, selects_x _ _ 14 x 0xa1, BitVec.and_zero⟩

theorem EncodesInRow.readDelayTimer (x : Reg) : EncodesInRow.Statement (.readDelayTimer x) :=
  ⟨⟨"ReadDelayTimer", 0xF0FF, 0xF007, 0x0000⟩, by decide, rfl, selects_x _ _ 15 x 0x07, BitVec.and_zero⟩

theorem EncodesInRow.waitForKey (x : Reg) : EncodesInRow.Statement (.waitForKey x) :=
  ⟨⟨"WaitForKey", 0xF0FF, 0xF00A, 0x0000⟩, by decide, rfl, selects_x _ _ 15 x 0x0a, BitVec.and_zero⟩

theorem EncodesInRow.setDelayTimer (x : Reg) : EncodesInRow.Statement (.setDelayTimer x) :=
  ⟨⟨"SetDelayTimer", 0xF0FF, 0xF015, 0x0000⟩, by decide, rfl, selects_x _ _ 15 x 0x15, BitVec.and_zero⟩

theorem EncodesInRow.setSoundTimer (x : Reg) : EncodesInRow.Statement (.setSoundTimer x) :=
  ⟨⟨"SetSoundTimer", 0xF0FF, 0xF018, 0x0000⟩, by decide, rfl, selects_x _ _ 15 x 0x18, BitVec.and_zero⟩

theorem EncodesInRow.addToIndex (x : Reg) : EncodesInRow.Statement (.addToIndex x) :=
  ⟨⟨"AddToIndex", 0xF0FF, 0xF01E, 0x0000⟩, by decide, rfl, selects_x _ _ 15 x 0x1e, BitVec.and_zero⟩

theorem EncodesInRow.selectCharacter (x : Reg) : EncodesInRow.Statement (.selectCharacter x) :=
  ⟨⟨"SelectCharacter", 0xF0FF, 0xF029, 0x0000⟩, by decide, rfl, selects_x _ _ 15 x 0x29, BitVec.and_zero⟩

theorem EncodesInRow.storeBcd (x : Reg) : EncodesInRow.Statement (.storeBcd x) :=
  ⟨⟨"StoreBcd", 0xF0FF, 0xF033, 0x0000⟩, by decide, rfl, selects_x _ _ 15 x 0x33, BitVec.and_zero⟩

theorem EncodesInRow.storeRegisters (x : Reg) : EncodesInRow.Statement (.storeRegisters x) :=
  ⟨⟨"StoreRegisters", 0xF0FF, 0xF055, 0x0000⟩, by decide, rfl, selects_x _ _ 15 x 0x55, BitVec.and_zero⟩

theorem EncodesInRow.loadRegisters (x : Reg) : EncodesInRow.Statement (.loadRegisters x) :=
  ⟨⟨"LoadRegisters", 0xF0FF, 0xF065, 0x0000⟩, by decide, rfl, selects_x _ _ 15 x 0x65, BitVec.and_zero⟩

end Sys2Proof.Laws
end

