-- ==== Sys2Proof/Laws/Screen.lean ====
section
/-! SUPPORT. What the screen operations do: one flip, a list of flips, and where a sprite's pixels land. -/

namespace Sys2Proof.Machine

@[simp] theorem getPixel_blankScreen (r : Fin Config.screenH) (c : Fin Config.screenW) :
    getPixel blankScreen r c = false := by
  simp only [getPixel, blankScreen, Vector.getElem_replicate]

/-- A flip changes its own pixel and no other. -/
theorem getPixel_flipPixel (scr : Screen) (r r' : Fin Config.screenH) (c c' : Fin Config.screenW) :
    getPixel (flipPixel scr r c) r' c' = (getPixel scr r' c' ^^ decide ((r', c') = (r, c))) := by
  simp only [getPixel, flipPixel, Vector.getElem_set]
  by_cases hr : r.val = r'.val
  · by_cases hc : c.val = c'.val
    · have h1 := Fin.ext hr
      have h2 := Fin.ext hc
      subst h1 h2
      simp
    · have h3 : ¬ ((r', c') = (r, c)) := by
        simp only [Prod.mk.injEq, not_and]; intro _ h; exact hc (congrArg Fin.val h).symm
      simp [hr, hc, h3]
  · have h3 : ¬ ((r', c') = (r, c)) := by
      simp only [Prod.mk.injEq, not_and]; intro h; exact absurd (congrArg Fin.val h).symm hr
    simp [hr, h3]

/-- Drawing a list of distinct pixels flips exactly those, and `hit` says whether one of them was set before. -/
theorem foldl_drawPixel (ps : List (Fin Config.screenH × Fin Config.screenW)) (hn : ps.Nodup) (scr : Screen) (hit : Bool) :
    (∀ r c, getPixel (ps.foldl drawPixel (scr, hit)).1 r c = (getPixel scr r c ^^ decide ((r, c) ∈ ps))) ∧
    (ps.foldl drawPixel (scr, hit)).2 = (hit || ps.any fun p => getPixel scr p.1 p.2) := by
  induction ps generalizing scr hit with
  | nil => simp
  | cons p ps ih =>
    obtain ⟨hp, hps⟩ := List.nodup_cons.1 hn
    obtain ⟨h1, h2⟩ := ih hps (flipPixel scr p.1 p.2) (hit || getPixel scr p.1 p.2)
    refine ⟨fun r c => ?_, ?_⟩
    · rw [List.foldl_cons, drawPixel, h1, getPixel_flipPixel]
      by_cases hrc : (r, c) = p
      · subst hrc; simp [hp]
      · simp [hrc]
    · rw [List.foldl_cons, drawPixel, h2, List.any_cons, Bool.or_assoc]
      congr 2
      rw [Bool.eq_iff_iff, List.any_eq_true, List.any_eq_true]
      refine exists_congr fun q => and_congr_right fun hq => ?_
      have hne : ¬ ((q.1, q.2) = (p.1, p.2)) := fun h => hp ((show q = p from h) ▸ hq)
      simp [getPixel_flipPixel, hne]

/-! ## Where a sprite's pixels land (45_display.md R171) -/

theorem mem_rowPixels (bx byy : Byte) (r : Nat) (row : Byte) (p : Fin Config.screenH × Fin Config.screenW) :
    p ∈ rowPixels bx byy r row ↔ ∃ b, b < 8 ∧ spriteBit row b = true ∧ p = pixelAt bx byy r b := by
  simp only [rowPixels, List.mem_map, List.mem_filter, List.mem_range]
  constructor
  · rintro ⟨b, ⟨h1, h2⟩, rfl⟩; exact ⟨b, h1, h2, rfl⟩
  · rintro ⟨b, h1, h2, rfl⟩; exact ⟨b, ⟨h1, h2⟩, rfl⟩

theorem mem_spritePixels (bx byy : Byte) (r : Nat) (rows : List Byte) (p : Fin Config.screenH × Fin Config.screenW) :
    p ∈ spritePixels bx byy r rows ↔
      ∃ k b, ∃ h : k < rows.length, b < 8 ∧ spriteBit rows[k] b = true ∧ p = pixelAt bx byy (r + k) b := by
  induction rows generalizing r with
  | nil => simp [spritePixels]
  | cons row rows ih =>
    simp only [spritePixels, List.mem_append, mem_rowPixels, ih]
    constructor
    · rintro (⟨b, h1, h2, rfl⟩ | ⟨k, b, h, h1, h2, rfl⟩)
      · exact ⟨0, b, by simp, h1, by simpa using h2, by simp⟩
      · exact ⟨k + 1, b, by simpa using h, h1, by simpa using h2, by congr 1; omega⟩
    · rintro ⟨k, b, h, h1, h2, rfl⟩
      cases k with
      | zero => exact .inl ⟨b, h1, by simpa using h2, by simp⟩
      | succ k => exact .inr ⟨k, b, by simpa using h, h1, by simpa using h2, by congr 1; omega⟩

/-- Because of the wrap, two pixels of one sprite never land on the same cell: 8 columns of 64, at most 32 rows of 32. -/
theorem pixelAt_inj {bx byy : Byte} {r r' b b' : Nat} (hr : r < 32) (hr' : r' < 32) (hb : b < 8) (hb' : b' < 8)
    (h : pixelAt bx byy r b = pixelAt bx byy r' b') : r = r' ∧ b = b' := by
  simp only [pixelAt, Prod.mk.injEq, Fin.mk.injEq, Config.screenH, Config.screenW] at h
  omega

theorem nodup_rowPixels (bx byy : Byte) (r : Nat) (row : Byte) (hr : r < 32) : (rowPixels bx byy r row).Nodup := by
  rw [rowPixels, List.nodup_map_iff_inj_on (List.Nodup.filter _ List.nodup_range)]
  intro b hb b' hb' h
  simp only [List.mem_filter, List.mem_range] at hb hb'
  exact (pixelAt_inj hr hr hb.1 hb'.1 h).2

theorem nodup_spritePixels (bx byy : Byte) (r : Nat) (rows : List Byte) (h : r + rows.length ≤ 32) :
    (spritePixels bx byy r rows).Nodup := by
  induction rows generalizing r with
  | nil => exact List.nodup_nil
  | cons row rows ih =>
    simp only [List.length_cons] at h
    rw [spritePixels, List.nodup_append]
    refine ⟨nodup_rowPixels bx byy r row (by omega), ih (r + 1) (by omega), ?_⟩
    intro p hp q hq hpq
    subst hpq
    obtain ⟨b, hb, -, h1⟩ := (mem_rowPixels _ _ _ _ _).1 hp
    obtain ⟨k, b', hk, hb', -, h2⟩ := (mem_spritePixels _ _ _ _ _).1 hq
    have := (pixelAt_inj (by omega) (by omega) hb hb' (h1.symm.trans h2)).1
    omega

/-- What a sprite of at most 15 rows does to the screen. -/
theorem drawSprite_spec (scr : Screen) (bx byy : Byte) (rows : List Byte) (h : rows.length ≤ 32) :
    (∀ r c, getPixel (drawSprite scr bx byy rows).1 r c =
      (getPixel scr r c ^^ decide ((r, c) ∈ spritePixels bx byy 0 rows))) ∧
    ((drawSprite scr bx byy rows).2 = true ↔ ∃ p ∈ spritePixels bx byy 0 rows, getPixel scr p.1 p.2 = true) := by
  obtain ⟨h1, h2⟩ := foldl_drawPixel (spritePixels bx byy 0 rows) (nodup_spritePixels bx byy 0 rows (by omega)) scr false
  refine ⟨h1, ?_⟩
  rw [drawSprite, h2, Bool.false_or, List.any_eq_true]

/-- The pixels Draw flips are those under the sprite, in the statements' terms. -/
theorem mem_spritePixels_iff_underSprite (s : State) (x y : Reg) (n : SpriteLen) (r : Fin Config.screenH)
    (c : Fin Config.screenW) :
    (r, c) ∈ spritePixels (readV s x) (readV s y) 0 (loadAtIndex s n.val) ↔ UnderSprite s x y n r c := by
  simp only [mem_spritePixels, UnderSprite, pixelAt, Prod.mk.injEq, Fin.ext_iff, loadAtIndex,
    Memory.length_readBytes, Memory.getElem_readBytes, spriteBit, BitVec.testBit_toNat, Nat.zero_add, exists_prop,
    Config.screenH, Config.screenW]

end Sys2Proof.Machine
end

