-- ==== Sys2Proof/Machine/Assembly.lean ====
section
/-! DEFINITION. The spec's own assembly notation (30_encoding.md R90, decision D23): the variant name, then operands
separated by commas, registers `V0`..`VF`, immediates and addresses in hex with `0x`. It has no effect on execution
(notes/assumptions/34.md). -/

namespace Sys2Proof.Machine

/-- One hex digit, capital. -/
def hexDigit (d : Nat) : String := ["0", "1", "2", "3", "4", "5", "6", "7", "8", "9", "A", "B", "C", "D", "E", "F"].getD d "?"

/-- A register name, `V0`..`VF`. -/
def asmReg (x : Reg) : String := "V" ++ hexDigit x.val

/-- An 8-bit immediate, two hex digits. -/
def asmByte (kk : Byte) : String := "0x" ++ hexDigit (kk.toNat / 16) ++ hexDigit (kk.toNat % 16)

/-- A 12-bit address, three hex digits. -/
def asmAddr (nnn : Addr) : String :=
  "0x" ++ hexDigit (nnn.toNat / 256) ++ hexDigit (nnn.toNat / 16 % 16) ++ hexDigit (nnn.toNat % 16)

/-- The operands of an instruction in R90's order. -/
def asmOperands : Instr → List String
  | .nop => []
  | .clearScreen => []
  | .ret => []
  | .jump nnn => [asmAddr nnn]
  | .call nnn => [asmAddr nnn]
  | .skipIfEqualValue x kk => [asmReg x, asmByte kk]
  | .skipIfNotEqualValue x kk => [asmReg x, asmByte kk]
  | .skipIfEqualRegister x y => [asmReg x, asmReg y]
  | .loadValue x kk => [asmReg x, asmByte kk]
  | .addValue x kk => [asmReg x, asmByte kk]
  | .copy x y => [asmReg x, asmReg y]
  | .or x y => [asmReg x, asmReg y]
  | .and x y => [asmReg x, asmReg y]
  | .xor x y => [asmReg x, asmReg y]
  | .addRegister x y => [asmReg x, asmReg y]
  | .subtractVxVy x y => [asmReg x, asmReg y]
  | .shiftRight x y => [asmReg x, asmReg y]
  | .subtractVyVx x y => [asmReg x, asmReg y]
  | .shiftLeft x y => [asmReg x, asmReg y]
  | .skipIfNotEqualRegister x y => [asmReg x, asmReg y]
  | .setIndex nnn => [asmAddr nnn]
  | .jumpRelative nnn => [asmAddr nnn]
  | .random x kk => [asmReg x, asmByte kk]
  | .draw x y n => [asmReg x, asmReg y, toString n.val]
  | .skipIfKeyPressed x => [asmReg x]
  | .skipIfKeyNotPressed x => [asmReg x]
  | .readDelayTimer x => [asmReg x]
  | .waitForKey x => [asmReg x]
  | .setDelayTimer x => [asmReg x]
  | .setSoundTimer x => [asmReg x]
  | .addToIndex x => [asmReg x]
  | .selectCharacter x => [asmReg x]
  | .storeBcd x => [asmReg x]
  | .storeRegisters x => [asmReg x]
  | .loadRegisters x => [asmReg x]

/-- The text of an instruction. -/
def asmText (i : Instr) : String :=
  match asmOperands i with
  | [] => i.mnemonic
  | o :: os => i.mnemonic ++ " " ++ o ++ String.join (os.map (", " ++ ·))

end Sys2Proof.Machine
end

