-- ==== Sys2Proof/Tests/Slice0.lean ====
section
/-! SUPPORT. The model's own tests. Expected values come from spec/95_test_vectors.md (named in each group) or from the
rule cited; words are written out from 30_encoding.md R74. Then, for each statement with hypotheses, a theorem
`witness_<Name>` that shows states and operands which meet them, at the edges of the ranges. -/

namespace Sys2Proof.Tests

open Sys2Proof.Machine

/-! ## Helpers -/

/-- The next state of an outcome. -/
def nextOf : Host.Outcome State Fault Refusal → Option State
  | .next t => some t
  | .fault _ => none
  | .refused _ => none

/-- The error of an outcome. -/
def faultOf : Host.Outcome State Fault Refusal → Option Fault
  | .next _ => none
  | .fault e => some e
  | .refused _ => none

/-- A state whose next opcode is `w`. -/
def at_ (s : State) (w : Nat) : State := s.withFetchWord 16 w

/-- One step of `s` with the opcode `w` placed at `PC`. -/
def stepOn (s : State) (w : Nat) : Option State := nextOf (step (s.withFetchWord 16 w))

/-- The error of that step. -/
def stepFault (s : State) (w : Nat) : Option Fault := faultOf (step (s.withFetchWord 16 w))

/-- The same for a machine whose divider is 2, so that the timers can be computed. -/
def stepOn2 (s : State) (w : Nat) : Option State := nextOf (stepWith 2 (s.withFetchWord 16 w))

/-- `V[x]`, `V[15]` and `PC` after a step. -/
def result (o : Option State) (x : Reg) : Option (Byte × Byte × Word) := o.map fun t => (readV t x, readV t 15, t.pc)

/-- Reset with registers set. -/
def regs (l : List (Reg × Byte)) : State := l.foldl (fun s p => writeV s p.1 p.2) State.reset

/-- `DT`, `ST`, `CYCLE` after a step. -/
def timers (o : Option State) : Option (Byte × Byte × Nat) := o.map fun t => (t.dt, t.st, t.cycle)

/-- The set pixels among the cells of rows `rs` and columns `cs`. -/
def pixels (scr : Screen) (rs : List (Fin Config.screenH)) (cs : List (Fin Config.screenW)) : List (Nat × Nat) :=
  rs.flatMap fun r => (cs.filter fun c => getPixel scr r c).map fun c => (r.val, c.val)

/-! ## WellFormed (30_encoding.md R86, R88, R92) -/

theorem test_default_table_wellFormed : classFBytes.wellFormed = true := by decide

/-- A byte that selects two class-F instructions is refused. -/
theorem test_repeated_class_F_byte_refused : (ClassFBytes.wellFormed { classFBytes with storeBcd := 0x07 }) = false := by
  decide

theorem test_rows_wellFormed : (opcodeRows classFBytes).all OpcodeRow.wellFormed = true := by decide

/-- A pattern with a bit outside its mask is refused. -/
theorem test_row_pattern_outside_mask_refused : OpcodeRow.wellFormed ⟨"Jump", 0xF000, 0x1001, 0x0000⟩ = false := by decide

/-- A row that fixes an ignored bit is refused. -/
theorem test_row_fixed_ignored_bit_refused : OpcodeRow.wellFormed ⟨"Nop", 0xF000, 0x0000, 0x1FFF⟩ = false := by decide

theorem test_illegal_opcodes_refused :
    (([0x8128, 0x8129, 0x812A, 0x812B, 0x812C, 0x812D, 0x812F] ++ [0xE000, 0xE19F, 0xE1A0, 0xE1FF, 0xE09D] ++
      [0xF000, 0xF001, 0xF075, 0xF085, 0xF1FF, 0xF102, 0xF930]).all
      fun op => !(legalIn (opcodeRows classFBytes) op)) = true := by decide

/-- Legal, but with a discarded bit set (R88). -/
theorem test_noncanonical_opcodes_refused :
    ([0x0123, 0x512F, 0x9127].all fun op =>
      legalIn (opcodeRows classFBytes) op && !(canonicalIn (opcodeRows classFBytes) op)) = true := by decide

/-! ## Decode: words written out from the patterns of R74 (95_test_vectors.md 2.1) -/

theorem test_decode_flow :
    decodeTableWord 16 0x0000 = some .nop ∧ decodeTableWord 16 0x00EF = some .nop ∧
    decodeTableWord 16 0x00E0 = some .clearScreen ∧ decodeTableWord 16 0x00EE = some .ret ∧
    decodeTableWord 16 0x1ABC = some (.jump 0xABC) ∧ decodeTableWord 16 0x2200 = some (.call 0x200) ∧
    decodeTableWord 16 0xB300 = some (.jumpRelative 0x300) := by decide

theorem test_decode_skips :
    decodeTableWord 16 0x3A42 = some (.skipIfEqualValue 10 0x42) ∧
    decodeTableWord 16 0x4A42 = some (.skipIfNotEqualValue 10 0x42) ∧
    decodeTableWord 16 0x5120 = some (.skipIfEqualRegister 1 2) ∧
    decodeTableWord 16 0x9120 = some (.skipIfNotEqualRegister 1 2) ∧
    decodeTableWord 16 0xE19E = some (.skipIfKeyPressed 1) ∧
    decodeTableWord 16 0xE1A1 = some (.skipIfKeyNotPressed 1) := by decide

theorem test_decode_alu :
    decodeTableWord 16 0x6A7F = some (.loadValue 10 0x7F) ∧ decodeTableWord 16 0x7F01 = some (.addValue 15 0x01) ∧
    decodeTableWord 16 0x8120 = some (.copy 1 2) ∧ decodeTableWord 16 0x8121 = some (.or 1 2) ∧
    decodeTableWord 16 0x8122 = some (.and 1 2) ∧ decodeTableWord 16 0x8123 = some (.xor 1 2) ∧
    decodeTableWord 16 0x8124 = some (.addRegister 1 2) ∧ decodeTableWord 16 0x8125 = some (.subtractVxVy 1 2) ∧
    decodeTableWord 16 0x8126 = some (.shiftRight 1 2) ∧ decodeTableWord 16 0x8127 = some (.subtractVyVx 1 2) ∧
    decodeTableWord 16 0x812E = some (.shiftLeft 1 2) ∧ decodeTableWord 16 0xC30F = some (.random 3 0x0F) := by decide

theorem test_decode_index_display_keys_timers :
    decodeTableWord 16 0xA2F0 = some (.setIndex 0x2F0) ∧ decodeTableWord 16 0xD125 = some (.draw 1 2 5) ∧
    decodeTableWord 16 0xF207 = some (.readDelayTimer 2) ∧ decodeTableWord 16 0xF30A = some (.waitForKey 3) ∧
    decodeTableWord 16 0xF215 = some (.setDelayTimer 2) ∧ decodeTableWord 16 0xF218 = some (.setSoundTimer 2) ∧
    decodeTableWord 16 0xF21E = some (.addToIndex 2) ∧ decodeTableWord 16 0xF429 = some (.selectCharacter 4) ∧
    decodeTableWord 16 0xF133 = some (.storeBcd 1) ∧ decodeTableWord 16 0xF255 = some (.storeRegisters 2) ∧
    decodeTableWord 16 0xFF65 = some (.loadRegisters 15) := by decide

theorem test_decode_rejects :
    decodeBytes [0x81, 0x28] = .error (.invalidInstruction 0x8128) ∧
    decodeBytes [0xE0, 0x9D] = .error (.invalidInstruction 0xE09D) ∧
    decodeBytes [0xF0, 0x75] = .error (.invalidInstruction 0xF075) ∧ decodeBytes [0x12] = .error .truncated := by decide

/-- Bytes in memory order (20_memory.md R56). -/
theorem test_encode_bytes :
    encodeBytes (.draw 1 2 15) = [0xD1, 0x2F] ∧ encodeBytes (.storeRegisters 2) = [0xF2, 0x55] ∧
    encodeBytes .nop = [0x00, 0x00] := by decide

/-- R90, with the texts of 95_test_vectors.md part 3. -/
theorem test_assembly_text :
    asmText (.loadValue 10 0xFF) = "LoadValue VA, 0xFF" ∧ asmText (.jump 0x20C) = "Jump 0x20C" ∧
    asmText (.draw 1 2 5) = "Draw V1, V2, 5" ∧ asmText .ret = "Return" := by decide

/-! ## Control flow (2.2) -/

theorem test_nop : (stepOn State.reset 0x0ABC).map (·.pc) = some 0x202 := by decide

theorem test_jump : (stepOn State.reset 0x1ABC).map (·.pc) = some 0xABC := by decide

theorem test_call :
    (stepOn { State.reset with sp := 31 } 0x2300).map (fun t => (t.pc, t.sp.val, t.stack[31])) =
      some (0x300, 32, 0x202) := by decide

theorem test_call_full : stepFault { State.reset with sp := 32 } 0x2300 = some .callStackDepthExceeded := by decide

theorem test_return :
    (stepOn { State.reset with sp := 1, stack := State.reset.stack.set 0 0x0456 } 0x00EE).map
      (fun t => (t.pc, t.sp.val, t.stack[0])) = some (0x456, 0, 0x456) := by decide

theorem test_return_empty :
    runCommand .step (State.reset.withFetchWord 16 0x00EE) =
      ({ State.reset.withFetchWord 16 0x00EE with pc := 0x202 }, .error .callStackEmpty) := by decide

theorem test_jumpRelative : (stepOn (regs [(0, 0xFF)]) 0xBF00).map (·.pc) = some 0xFFF := by decide

theorem test_jumpRelative_outside : stepFault (regs [(0, 0xFF)]) 0xBF01 = some .memoryAccessError := by decide

/-! ## Skips (2.3) -/

theorem test_skipIfEqualValue :
    ((stepOn (regs [(10, 0x42)]) 0x3A42).map (·.pc), (stepOn (regs [(10, 0x41)]) 0x3A42).map (·.pc)) =
      (some 0x204, some 0x202) := by decide

theorem test_skipIfNotEqualValue :
    ((stepOn (regs [(10, 0x42)]) 0x4A42).map (·.pc), (stepOn (regs [(10, 0x41)]) 0x4A42).map (·.pc)) =
      (some 0x202, some 0x204) := by decide

theorem test_skipIfEqualRegister :
    ((stepOn (regs [(1, 7), (2, 7)]) 0x512F).map (·.pc), (stepOn (regs [(1, 7), (2, 8)]) 0x5120).map (·.pc)) =
      (some 0x204, some 0x202) := by decide

theorem test_skipIfNotEqualRegister :
    ((stepOn (regs [(1, 7), (2, 8)]) 0x9120).map (·.pc), (stepOn (regs [(1, 7), (2, 7)]) 0x9120).map (·.pc)) =
      (some 0x204, some 0x202) := by decide

/-- The largest reachable `PC` (R23). -/
theorem test_skip_at_top : (stepOn { State.reset with pc := 0xFFE } 0x3100).map (·.pc) = some 0x1002 := by decide

/-! ## Arithmetic (2.4) -/

theorem test_loadValue : result (stepOn State.reset 0x6A7F) 10 = some (0x7F, 0, 0x202) := by decide

theorem test_addValue : result (stepOn (regs [(2, 0x10)]) 0x7205) 2 = some (0x15, 1, 0x202) := by decide

theorem test_addValue_carry_and_flag_wins :
    (result (stepOn (regs [(2, 1)]) 0x72FF) 2, result (stepOn (regs [(15, 0x10)]) 0x7F05) 15) =
      (some (0, 0, 0x202), some (1, 1, 0x202)) := by decide

theorem test_copy : result (stepOn (regs [(4, 9), (3, 1)]) 0x8340) 3 = some (9, 0, 0x202) := by decide

theorem test_or : result (stepOn (regs [(1, 0xF0), (2, 0x0C), (15, 1)]) 0x8121) 1 = some (0xFC, 1, 0x202) := by decide

theorem test_and : result (stepOn (regs [(1, 0xF0), (2, 0x3C)]) 0x8122) 1 = some (0x30, 0, 0x202) := by decide

theorem test_xor : result (stepOn (regs [(1, 0xF0), (2, 0x3C)]) 0x8123) 1 = some (0xCC, 0, 0x202) := by decide

theorem test_addRegister : result (stepOn (regs [(1, 200), (2, 100)]) 0x8124) 1 = some (44, 1, 0x202) := by decide

theorem test_addRegister_old_flag_is_operand :
    result (stepOn (regs [(1, 10), (15, 1)]) 0x81F4) 1 = some (11, 0, 0x202) := by decide

theorem test_subtractVxVy :
    (result (stepOn (regs [(1, 5), (2, 10)]) 0x8125) 1, result (stepOn (regs [(1, 7), (2, 7)]) 0x8125) 1) =
      (some (251, 0, 0x202), some (0, 1, 0x202)) := by decide

theorem test_shiftRight :
    (result (stepOn (regs [(3, 5), (4, 0xFF)]) 0x8346) 3, result (stepOn (regs [(15, 2)]) 0x8FF6) 15) =
      (some (2, 1, 0x202), some (0, 0, 0x202)) := by decide

theorem test_subtractVyVx :
    (result (stepOn (regs [(1, 5), (2, 10)]) 0x8127) 1, result (stepOn (regs [(1, 10), (2, 5)]) 0x8127) 1) =
      (some (5, 1, 0x202), some (251, 0, 0x202)) := by decide

theorem test_shiftLeft :
    (result (stepOn (regs [(3, 0x81)]) 0x833E) 3, result (stepOn (regs [(3, 0x40)]) 0x833E) 3) =
      (some (2, 1, 0x202), some (0x80, 0, 0x202)) := by decide

/-- `kk = 0` gives 0 whatever is drawn, and one byte is drawn. -/
theorem test_random_masks_to_zero :
    ∃ t, exec (.random 3 0) State.reset = .next t ∧ readV t 3 = 0 ∧ t.draws = 1 :=
  ⟨_, rfl, by rw [readV_writeV, if_pos rfl]; exact BitVec.and_zero, rfl⟩

/-! ## Index register and memory (2.5) -/

theorem test_setIndex : (stepOn State.reset 0xAFFF).map (·.i) = some 0x0FFF := by decide

theorem test_addToIndex :
    ((stepOn { regs [(2, 0xFF)] with i := 0x0FFF } 0xF21E).map (·.i), (stepOn { regs [(2, 2)] with i := 0xFFFF } 0xF21E).map (·.i)) =
      (some 0x10FE, some 0x0001) := by decide

theorem test_selectCharacter :
    ((stepOn (regs [(4, 0x0A)]) 0xF429).map (·.i), (stepOn (regs [(4, 0xFF)]) 0xF429).map (·.i)) =
      (some 0x0032, some 0x04FB) := by decide

theorem test_storeBcd :
    (stepOn { regs [(1, 156)] with i := 0x300 } 0xF133).map (fun t => (t.mem.readBytes 0x300 3, t.i)) =
      some ([1, 5, 6], 0x300) := by decide

theorem test_storeBcd_edge :
    ((stepOn { regs [(1, 255)] with i := 4093 } 0xF133).map (fun t => t.mem.readBytes 4093 3),
      stepFault { regs [(1, 255)] with i := 4094 } 0xF133) = (some [2, 5, 5], some .memoryAccessError) := by decide

theorem test_storeRegisters :
    (stepOn { regs [(0, 0x11), (1, 0x22), (2, 0x33), (3, 0x44)] with i := 0x400 } 0xF255).map
      (fun t => (t.mem.readBytes 0x400 4, t.i)) = some ([0x11, 0x22, 0x33, 0], 0x400) := by decide

theorem test_storeRegisters_edge :
    ((stepOn { State.reset with i := 4080 } 0xFF55).map (·.pc), stepFault { State.reset with i := 4081 } 0xFF55) =
      (some 0x202, some .memoryAccessError) := by decide

/-- `I = 0`: glyph 0 of the default font, read as data. -/
theorem test_loadRegisters :
    (stepOn (regs [(5, 9)]) 0xF465).map (fun t => t.v.toList.take 6) = some [0xF0, 0x90, 0x90, 0x90, 0xF0, 9] := by decide

theorem test_loadRegisters_edge : stepFault { State.reset with i := 4081 } 0xFF65 = some .memoryAccessError := by decide

/-! ## Display (2.6) -/

theorem test_clearScreen :
    (stepOn { State.reset with screen := flipPixel blankScreen 31 63 } 0x00E0).map
      (fun t => getPixel t.screen 31 63) = some false := by decide

/-- V-D5: the sprite wraps over both edges. -/
theorem test_draw_wraps :
    (stepOn { regs [(2, 255), (3, 255)] with i := 0x300, mem := State.reset.mem.write 0x300 0xFF } 0xD231).map
      (fun t => (pixels t.screen [0, 30, 31] [0, 5, 6, 7, 62, 63], readV t 15)) =
      some ([(31, 0), (31, 5), (31, 6), (31, 63)], 0) := by decide

/-- V-D6: the old `V[15]` is the column; a set pixel is cleared and reported. -/
theorem test_draw_collision :
    (stepOn { regs [(15, 10), (1, 3)] with i := 0x300, mem := State.reset.mem.write 0x300 0x80, screen := flipPixel blankScreen 3 10 }
      0xDF11).map (fun t => (getPixel t.screen 3 10, readV t 15)) = some (false, 1) := by decide

/-! ## Keys and timers (2.7) -/

theorem test_skipIfKeyPressed :
    ((stepOn { regs [(1, 15)] with keys := 0x8000 } 0xE19E).map (·.pc), stepFault { regs [(1, 16)] with keys := 0xFFFF } 0xE19E) =
      (some 0x204, some (.invalidInputKey 16)) := by decide

theorem test_skipIfKeyNotPressed :
    ((stepOn { regs [(1, 4)] with keys := 0x0020 } 0xE1A1).map (·.pc), stepFault (regs [(1, 0xFF)]) 0xE1A1) =
      (some 0x204, some (.invalidInputKey 255)) := by decide

theorem test_waitForKey_blocked :
    (stepOn { State.reset with cycle := 3, dt := 9 } 0xF30A).map (fun t => (t.pc, t.cycle, t.dt)) =
      some (0x200, 3, 9) := by decide

theorem test_waitForKey_held :
    result (stepOn { State.reset with keys := 0x0088 } 0xF30A) 3 = some (3, 0, 0x202) := by decide

theorem test_readDelayTimer :
    (stepOn2 { State.reset with dt := 0x3C, cycle := 1 } 0xF207).map (fun t => (readV t 2, t.dt, t.cycle)) =
      some (0x3C, 0x3B, 0) := by decide

theorem test_setDelayTimer :
    (timers (stepOn2 (regs [(2, 60)]) 0xF215), timers (stepOn2 { regs [(2, 60)] with cycle := 1 } 0xF215)) =
      (some (60, 0, 1), some (59, 0, 0)) := by decide

theorem test_setSoundTimer :
    (timers (stepOn2 (regs [(2, 5)]) 0xF218), timers (stepOn2 { regs [(2, 1)] with cycle := 1 } 0xF218)) =
      (some (0, 5, 1), some (0, 0, 0)) := by decide

/-- Another `FONT` than the default: every byte its own address. -/
def otherFont : FontTable := Vector.ofFn fun k => BitVec.ofNat 8 k.val

/-- A reset under another font: its bytes at 0..79, and zero above, after a program was there. -/
theorem test_reset_with_other_font :
    ((runCommandWith otherFont .reset (at_ State.reset 0x1234)).1.mem.readBytes 76 5,
      (runCommandWith otherFont .reset (at_ State.reset 0x1234)).1.mem.read 0x200) = ([76, 77, 78, 79, 0], 0) := by decide

/-- The timers are floored at 0. -/
theorem test_timers_floor :
    timers (stepOn2 { State.reset with st := 1, cycle := 1 } 0x0000) = some (0, 0, 0) := by decide

/-! ## The step's errors and the host's commands (2.8, part 1) -/

theorem test_step_invalid :
    runCommand .step (State.reset.withFetchWord 16 0x8128) =
      (State.reset.withFetchWord 16 0x8128, .error (.invalidInstruction 0x8128)) := by decide

theorem test_step_pc_out_of_bounds :
    faultOf (step { State.reset with pc := 4095 }) = some (.programCounterOutOfBounds 4095) := by decide

theorem test_load_then_peek :
    (runCommand (.peekInstruction 0x200) (runCommand (.load [0x6A, 0x7F]) State.reset).1).2 =
      .instruction (.loadValue 10 0x7F) := by decide

theorem test_peek_bound :
    ((runCommand (.peekInstruction 4093) State.reset).2, (runCommand (.peekInstruction 4094) State.reset).2) =
      (.instruction .nop, .error .memoryAccessError) := by decide

theorem test_sound_output :
    (isSoundActive { State.reset with st := 2 }, isSoundActive { State.reset with st := 1 }) = (true, false) := by decide

theorem test_set_input_keys : (runCommand (.setInputKeys 0xF1234) State.reset).1.keys = 0x1234 := by decide

/-! ## Witnesses: states and operands that meet the hypotheses of the statements -/

/-- Another well-formed class-F table than the default. -/
def otherTable : ClassFBytes := { classFBytes with storeBcd := 0x00, loadRegisters := 0xFF }

theorem witness_DecodeEncodeRoundTrip : classFBytes.wellFormed = true ∧ otherTable.wellFormed = true := by decide

/-- The edges of the three illegal classes, and a class-5 opcode that decodes by decision D6 (log 5). -/
theorem witness_IllegalOpcodesAreExactlyThese :
    decodeWord 0x8008 = .error (.invalidInstruction 0x8008) ∧ decodeWord 0x8FFF = .error (.invalidInstruction 0x8FFF) ∧
    decodeWord 0xE000 = .error (.invalidInstruction 0xE000) ∧ decodeWord 0xFFFF = .error (.invalidInstruction 0xFFFF) ∧
    decodeWord 0x5FFF = .ok (.skipIfEqualRegister 15 15) := by
  decide

/-- One opcode that is canonical and two that are not, under two tables. -/
theorem witness_CanonicalOpcodesReencode :
    classFBytes.wellFormed = true ∧ otherTable.wellFormed = true ∧
    decodeWordWith otherTable 0xF100 = .ok (.storeBcd 1) ∧ canonicalIn (opcodeRows otherTable) 0xF100 = true ∧
    decodeWordWith classFBytes 0x512F = .ok (.skipIfEqualRegister 1 2) ∧
    canonicalIn (opcodeRows classFBytes) 0x512F = false ∧
    decodeWordWith classFBytes 0x0FFF = .ok .nop ∧ canonicalIn (opcodeRows classFBytes) 0x0FFF = false := by decide

/-- A legal and an illegal opcode under two tables. -/
theorem witness_MaskMatchTableAgrees :
    otherTable.wellFormed = true ∧ decodeWordWith otherTable 0xFFFF = .ok (.loadRegisters 15) ∧
    decodeWordWith classFBytes 0xFFFF = .error (.invalidInstruction 0xFFFF) := by decide

/-- At `PC = 4094`, the last address a step fetches from: an opcode that completes, one that fails, and WaitForKey with a
key held. -/
theorem witness_StepRunsDecodedInstruction :
    (let s := at_ { State.reset with pc := 4094 } 0x6A7F
     s.pc.toNat + 1 < 4096 ∧
      decodeBytes [s.mem.read s.pc.toNat, s.mem.read (s.pc.toNat + 1)] = .ok (.loadValue 10 0x7F, []) ∧
      ¬ ((∃ x, Instr.loadValue 10 0x7F = .waitForKey x) ∧ s.keys = 0) ∧
      ∃ t, exec (.loadValue 10 0x7F) { s with pc := s.pc + 2 } = .next t) ∧
    (let s := at_ State.reset 0x00EE
     s.pc.toNat + 1 < 4096 ∧ decodeBytes [s.mem.read s.pc.toNat, s.mem.read (s.pc.toNat + 1)] = .ok (.ret, []) ∧
      ¬ ((∃ x, Instr.ret = .waitForKey x) ∧ s.keys = 0) ∧ exec .ret { s with pc := s.pc + 2 } = .fault .callStackEmpty) ∧
    (let s := at_ { State.reset with keys := 1 } 0xF30A
     s.pc.toNat + 1 < 4096 ∧
      decodeBytes [s.mem.read s.pc.toNat, s.mem.read (s.pc.toNat + 1)] = .ok (.waitForKey 3, []) ∧
      ¬ ((∃ x, Instr.waitForKey 3 = .waitForKey x) ∧ s.keys = 0) ∧
      ∃ t, exec (.waitForKey 3) { s with pc := s.pc + 2 } = .next t) := by
  refine ⟨⟨by decide, by decide, fun h => ?_, _, rfl⟩, ⟨by decide, by decide, fun h => ?_, ?_⟩,
    ⟨by decide, by decide, fun h => absurd h.2 (by decide), ?_⟩⟩
  · obtain ⟨⟨x, hx⟩, -⟩ := h; cases hx
  · obtain ⟨⟨x, hx⟩, -⟩ := h; cases hx
  · exact (exec_eq_fault _ _ _).2 ⟨rfl, rfl⟩
  · obtain ⟨k, hk, -⟩ := exec_waitForKey_eq 3
      (s := { at_ { State.reset with keys := 1 } 0xF30A with pc := (at_ { State.reset with keys := 1 } 0xF30A).pc + 2 })
      (by decide)
    exact ⟨_, hk⟩

theorem witness_ProgramCounterBoundsCheck :
    4096 ≤ ({ State.reset with pc := 4095 } : State).pc.toNat + 1 ∧
    ({ State.reset with pc := 4094 } : State).pc.toNat + 1 < 4096 := by decide

theorem witness_InvalidOpcodeEndsStepUnchanged :
    Fetches (at_ State.reset 0x8128) 0x8128 ∧ decodeWord 0x8128 = .error (.invalidInstruction 0x8128) :=
  ⟨⟨by decide, by decide⟩, by decide⟩

theorem witness_WaitForKeyBlocksAndFreezesTime :
    Fetches (at_ State.reset 0xFF0A) 0xFF0A ∧ decodeWord 0xFF0A = .ok (.waitForKey 15) ∧ (at_ State.reset 0xFF0A).keys = 0 :=
  ⟨⟨by decide, by decide⟩, by decide, by decide⟩

/-- The divider at 1 and 2, one step before it expires and at it; a step that reaches the stage; `CYCLE = 0`. -/
theorem witness_TimerStage :
    State.reset.cycle + 1 < 2 ∧ 2 ≤ ({ State.reset with cycle := 1 } : State).cycle + 1 ∧ 1 ≤ State.reset.cycle + 1 ∧
    State.reset.cycle = 0 ∧ Fetches (at_ State.reset 0x6A7F) 0x6A7F ∧ decodeWord 0x6A7F = .ok (.loadValue 10 0x7F) ∧
    ∃ t, exec (.loadValue 10 0x7F) { at_ State.reset 0x6A7F with pc := (at_ State.reset 0x6A7F).pc + 2 } = .next t :=
  ⟨by decide, by decide, by decide, rfl, ⟨by decide, by decide⟩, by decide, _, rfl⟩

/-- Each of the six skips fetched, the first at the last address a step fetches from, each taken or not; the key skips
with 15, the highest key. -/
theorem witness_SkipNeverDecodesTheSkipped :
    (Fetches (at_ { State.reset with pc := 4094 } 0x3F00) 0x3F00 ∧
      decodeWord 0x3F00 = .ok (.skipIfEqualValue 15 0) ∧ readV (at_ { State.reset with pc := 4094 } 0x3F00) 15 = 0) ∧
    (Fetches (at_ State.reset 0x4001) 0x4001 ∧ decodeWord 0x4001 = .ok (.skipIfNotEqualValue 0 1) ∧
      readV (at_ State.reset 0x4001) 0 ≠ 1) ∧
    (Fetches (at_ (regs [(1, 7)]) 0x512F) 0x512F ∧ decodeWord 0x512F = .ok (.skipIfEqualRegister 1 2) ∧
      readV (at_ (regs [(1, 7)]) 0x512F) 1 ≠ readV (at_ (regs [(1, 7)]) 0x512F) 2) ∧
    (Fetches (at_ State.reset 0x9120) 0x9120 ∧ decodeWord 0x9120 = .ok (.skipIfNotEqualRegister 1 2) ∧
      readV (at_ State.reset 0x9120) 1 = readV (at_ State.reset 0x9120) 2) ∧
    (Fetches (at_ { regs [(1, 15)] with keys := 0x8000 } 0xE19E) 0xE19E ∧ decodeWord 0xE19E = .ok (.skipIfKeyPressed 1) ∧
      (readV (at_ { regs [(1, 15)] with keys := 0x8000 } 0xE19E) 1).toNat ≤ 15 ∧ (0x8000 : Word).toNat.testBit 15 = true) ∧
    (Fetches (at_ (regs [(1, 15)]) 0xE1A1) 0xE1A1 ∧ decodeWord 0xE1A1 = .ok (.skipIfKeyNotPressed 1) ∧
      (readV (at_ (regs [(1, 15)]) 0xE1A1) 1).toNat ≤ 15 ∧ (at_ (regs [(1, 15)]) 0xE1A1).keys = 0) :=
  ⟨⟨⟨by decide, by decide⟩, by decide, by decide⟩, ⟨⟨by decide, by decide⟩, by decide, by decide⟩,
    ⟨⟨by decide, by decide⟩, by decide, by decide⟩, ⟨⟨by decide, by decide⟩, by decide, by decide⟩,
    ⟨⟨by decide, by decide⟩, by decide, by decide, by decide⟩, ⟨⟨by decide, by decide⟩, by decide, by decide, by decide⟩⟩

/-- A failure in stage 1, in stage 2 and in stage 5. -/
theorem witness_FailedStepChangesOnlyPc :
    (runCommand .step { State.reset with pc := 4095 }).2 = .error (.programCounterOutOfBounds 4095) ∧
    (runCommand .step (at_ State.reset 0xE09D)).2 = .error (.invalidInstruction 0xE09D) ∧
    (runCommand .step (at_ { State.reset with i := 4094 } 0xF133)).2 = .error .memoryAccessError := by
  refine ⟨by decide, by decide, by decide⟩

/-- A state at every edge of the invariant: `PC = 4094` (so that a skip reaches 4098), a full stack of 4096s, `CYCLE` one
below the divider, a byte of memory changed. -/
def edgeState : State :=
  { State.reset with
    pc := 4094
    sp := 32
    stack := Vector.replicate Config.stackDepth 4096
    cycle := Config.timerDivider - 1
    mem := (State.reset.mem.write 4094 0x30).write 4095 0x00 }

theorem inv_edgeState : Inv edgeState := by
  refine ⟨by decide, by decide, fun k _ => ?_, ?_⟩
  · simp [edgeState]
  · have := timerDivider_pos
    show Config.timerDivider - 1 < Config.timerDivider
    omega

theorem witness_StepKeepsMachineInvariant : Inv edgeState ∧ ∃ t, step edgeState = .next t := by
  refine ⟨inv_edgeState, ?_⟩
  have hf : Fetches edgeState 0x3000 := ⟨by decide, by decide⟩
  exact ⟨_, stepWith_eq Config.timerDivider hf (i := .skipIfEqualValue 0 0) (by decide) rfl⟩

theorem witness_CommandsKeepMachineInvariant : Inv edgeState := inv_edgeState

theorem witness_LoadCopiesTheRom :
    (List.replicate 3584 (1 : Byte)).length ≤ 3584 ∧ 3584 < (List.replicate 3585 (1 : Byte)).length := by
  rw [List.length_replicate, List.length_replicate]
  decide

theorem witness_PeekDecodesWithoutChange :
    4093 < 4094 ∧ (0x0000 : Word).toNat = (State.reset.mem.read 4093).toNat * 256 + (State.reset.mem.read (4093 + 1)).toNat ∧
    decodeWord 0x0000 = .ok .nop ∧
    (0xF090 : Word).toNat = (State.reset.mem.read 0).toNat * 256 + (State.reset.mem.read (0 + 1)).toNat ∧
    decodeWord 0xF090 = .error (.invalidInstruction 0xF090) ∧
    ([0x6A, 0x7F] : List Byte).length ≤ 3584 ∧ (0x6A7F : Word).toNat = (0x6A : Byte).toNat * 256 + (0x7F : Byte).toNat ∧
    decodeWord 0x6A7F = .ok (.loadValue 10 0x7F) ∧
    ([0x81, 0x28] : List Byte).length ≤ 3584 ∧ (0x8128 : Word).toNat = (0x81 : Byte).toNat * 256 + (0x28 : Byte).toNat ∧
    decodeWord 0x8128 = .error (.invalidInstruction 0x8128) := by decide

/-- Spans that end at 4096 and spans that pass it by one, for each of the four instructions. -/
theorem witness_MemReadAndMemWrite :
    4091 + 5 ≤ 4096 ∧ 4094 + ([1, 2] : List Byte).length ≤ 4096 ∧
    4096 < ({ State.reset with i := 4094 } : State).i.toNat + 3 ∧
    4096 < ({ State.reset with i := 4081 } : State).i.toNat + ((15 : Reg).val + 1) ∧
    4096 < ({ State.reset with i := 4090 } : State).i.toNat + (7 : SpriteLen).val := by decide

theorem witness_MemoryFormIsCanonical :
    (⟨[(0, 1), (4095, 7)]⟩ : Memory).wf = true ∧ (⟨[(0, 0xF0)]⟩ : Memory).wf = false ∧ 4095 < 4096 ∧
    ∀ a, a < 4096 → (⟨[(0, 1), (4095, 7)]⟩ : Memory).read a = (⟨[(0, 1), (4095, 7)]⟩ : Memory).read a :=
  ⟨by decide, by decide, by decide, fun _ _ => rfl⟩

/-- `V[0], V[1]` stored at the last two addresses and fetched from there. -/
theorem witness_StoreSeenByNextFetch :
    ∃ t u : State, exec (.storeRegisters 1) { State.reset with i := 4094 } = .next t ∧ (1 : Reg).val = (0 : Reg).val + 1 ∧
      (1 : Reg).val ≤ (1 : Reg).val ∧ u.mem = t.mem ∧
      u.pc.toNat = ({ State.reset with i := 4094 } : State).i.toNat + (0 : Reg).val :=
  ⟨_, { State.reset with pc := 4094, mem := _ }, exec_storeRegisters_eq (by decide), rfl, Nat.le_refl _, rfl, by decide⟩

theorem witness_NopOnlyAdvances :
    (0xFFF : Addr).toNat ≠ 0x0E0 ∧ (0xFFF : Addr).toNat ≠ 0x0EE ∧
    Fetches (at_ { State.reset with pc := 4094 } 0x0FFF) (BitVec.ofNat 16 (0xFFF : Addr).toNat) ∧
    (at_ { State.reset with pc := 4094 } 0x0FFF).pc.toNat = 4094 :=
  ⟨by decide, by decide, ⟨by decide, by decide⟩, by decide⟩

/-- The highest target, and a fetched Jump to its own address. -/
theorem witness_JumpLoadsPc :
    (0xFFF : Addr).toNat = 0xFFF ∧ Fetches (at_ State.reset 0x1200) (BitVec.ofNat 16 (0x1000 + (0x200 : Addr).toNat)) :=
  ⟨by decide, ⟨by decide, by decide⟩⟩

theorem witness_CallPushesAndJumps :
    ({ State.reset with sp := 31 } : State).sp.val < 32 ∧ State.reset.sp.val < 32 ∧
    ({ State.reset with sp := 32 } : State).sp.val = 32 := by decide

theorem witness_ReturnPopsPc :
    ({ State.reset with sp := 32 } : State).sp.val = (31 : Fin Config.stackDepth).val + 1 ∧
    ({ State.reset with sp := 1 } : State).sp.val = (0 : Fin Config.stackDepth).val + 1 ∧ State.reset.sp.val = 0 := by decide

theorem witness_ReturnUndoesCall :
    ∃ t u : State, exec (.call 0x300) { State.reset with sp := 31 } = .next t ∧ u.stack = t.stack ∧ u.sp = t.sp :=
  ⟨_, _, exec_call_eq 0x300 (by decide), rfl, rfl⟩

theorem witness_JumpRelativeAddsRegisterZero :
    (0xF00 : Addr).toNat + (readV (regs [(0, 0xFF)]) 0).toNat < 4096 ∧
    4096 ≤ (0xF01 : Addr).toNat + (readV (regs [(0, 0xFF)]) 0).toNat := by decide

theorem witness_CallStackErrors :
    ({ State.reset with sp := 32 } : State).sp.val = 32 ∧ State.reset.sp.val = 0 ∧
    exec (.call 0) { State.reset with sp := 32 } = .fault .callStackDepthExceeded ∧
    exec .ret State.reset = .fault .callStackEmpty ∧
    step (at_ { State.reset with sp := 32 } 0x2300) = .fault .callStackDepthExceeded ∧
    step (at_ State.reset 0x00EE) = .fault .callStackEmpty :=
  ⟨by decide, by decide, (exec_eq_fault _ _ _).2 ⟨rfl, rfl⟩, (exec_eq_fault _ _ _).2 ⟨rfl, rfl⟩,
    by rw [step, stepWith_eq Config.timerDivider (op := 0x2300) (i := .call 0x300) ⟨by decide, by decide⟩ (by decide) rfl,
        thenUpdate_eq_fault, exec_eq_fault]; exact ⟨rfl, rfl⟩,
    by rw [step, stepWith_eq Config.timerDivider (op := 0x00EE) (i := .ret) ⟨by decide, by decide⟩ (by decide) rfl,
        thenUpdate_eq_fault, exec_eq_fault]; exact ⟨rfl, rfl⟩⟩

theorem witness_SkipIfEqualRegisterCompares : ((3 : Reg) = 3) ∧ ((3 : Reg) ≠ 4) := by decide

/-- A destination below 15, for the clauses with `x ≠ 15`; 15 itself needs no hypothesis. -/
theorem witness_AddAndSubtractResults : (14 : Reg) ≠ 15 := by decide

theorem witness_ShiftResults : (0 : Reg) ≠ 15 := by decide

/-- Memory that holds the default font, and memory that holds another, with the highest digit in `V[15]`. -/
theorem witness_IndexArithmetic :
    (∀ a : Fin Config.fontLen, (regs [(15, 15)]).mem.read a.val = fontTable[a.val]) ∧
    (readV (regs [(15, 15)]) 15).toNat ≤ 15 ∧
    (∀ a : Fin Config.fontLen, (State.resetWith otherFont).mem.read a.val = otherFont[a.val]) ∧
    (readV (State.resetWith otherFont) 0).toNat ≤ 15 :=
  ⟨by decide, by decide, fun a => by rw [read_resetWith, dif_pos a.isLt], by decide⟩

theorem witness_StoreBcdWritesThreeDigits :
    ({ State.reset with i := 4093 } : State).i.toNat + 3 ≤ 4096 ∧ 4096 < ({ State.reset with i := 4094 } : State).i.toNat + 3 := by
  decide

/-- For StoreRegisters and for LoadRegisters, with 16 registers and with one. -/
theorem witness_StoreRegistersWritesBlock :
    ({ State.reset with i := 4080 } : State).i.toNat + ((15 : Reg).val + 1) ≤ 4096 ∧
    ({ State.reset with i := 4095 } : State).i.toNat + ((0 : Reg).val + 1) ≤ 4096 ∧
    4096 < ({ State.reset with i := 4081 } : State).i.toNat + ((15 : Reg).val + 1) ∧
    4096 < ({ State.reset with i := 4096 } : State).i.toNat + ((0 : Reg).val + 1) := by decide

theorem witness_LoadRegistersReadsBlock :
    ({ State.reset with i := 4080 } : State).i.toNat + ((15 : Reg).val + 1) ≤ 4096 ∧ (14 : Reg).val < (15 : Reg).val ∧
    4096 < ({ State.reset with i := 4081 } : State).i.toNat + ((15 : Reg).val + 1) := by decide

theorem witness_LoadRegistersUndoesStore :
    ∃ t u : State, exec (.storeRegisters 15) { State.reset with i := 4080 } = .next t ∧ u.mem = t.mem ∧
      u.i = ({ State.reset with i := 4080 } : State).i :=
  ⟨_, _, exec_storeRegisters_eq (by decide), rfl, rfl⟩

/-- The span edges of Draw, `n = 0` at 4096 among them, and a sprite pixel over a set and over a clear pixel. -/
theorem witness_DrawXorsSpriteAndSetsCollision :
    ({ State.reset with i := 4089 } : State).i.toNat + (7 : SpriteLen).val ≤ 4096 ∧
    4096 < ({ State.reset with i := 4090 } : State).i.toNat + (7 : SpriteLen).val ∧
    ({ State.reset with i := 4096 } : State).i.toNat + (0 : SpriteLen).val ≤ 4096 ∧
    4096 < ({ State.reset with i := 4097 } : State).i.toNat + (0 : SpriteLen).val ∧
    (let s : State := { State.reset with screen := flipPixel blankScreen 0 0 }
     UnderSprite s 0 1 5 0 0 ∧ getPixel s.screen 0 0 = true ∧ UnderSprite s 0 1 5 4 3 ∧ getPixel s.screen 4 3 = false) :=
  ⟨by decide, by decide, by decide, by decide, ⟨0, 0, by decide⟩, by decide, ⟨4, 3, by decide⟩, by decide⟩

theorem witness_DrawTwiceRestoresScreen :
    (0 : Reg) ≠ 15 ∧ (14 : Reg) ≠ 15 ∧ ({ State.reset with i := 4081 } : State).i.toNat + (15 : SpriteLen).val ≤ 4096 := by decide

theorem witness_KeySkipsFollowKeys :
    (readV (regs [(1, 15)]) 1).toNat ≤ 15 ∧ 15 < (readV (regs [(1, 16)]) 1).toNat ∧
    Fetches (at_ (regs [(1, 16)]) 0xE19E) (BitVec.ofNat 16 (0xE09E + (1 : Reg).val * 256)) ∧
    15 < (readV (at_ (regs [(1, 16)]) 0xE19E) 1).toNat ∧
    Fetches (at_ (regs [(1, 255)]) 0xE1A1) (BitVec.ofNat 16 (0xE0A1 + (1 : Reg).val * 256)) ∧
    15 < (readV (at_ (regs [(1, 255)]) 0xE1A1) 1).toNat :=
  ⟨by decide, by decide, ⟨by decide, by decide⟩, by decide, ⟨by decide, by decide⟩, by decide⟩

theorem witness_WaitForKeyStoresLowestHeld :
    ({ State.reset with keys := 0x8000 } : State).keys ≠ 0 ∧ State.reset.keys = 0 := by decide

/-- Each side of the three iffs and of the last clause: both skips above 15, a wait with no key. -/
theorem witness_KeyErrorsRaisedOnlyHere :
    exec (.skipIfKeyPressed 15) (regs [(15, 16)]) = .fault (.invalidInputKey 16) ∧
    exec (.skipIfKeyNotPressed 0) (regs [(0, 255)]) = .fault (.invalidInputKey 255) ∧
    exec (.waitForKey 0) State.reset = .fault .expectingInputKey := by
  refine ⟨?_, ?_, ?_⟩ <;> rw [exec_eq_fault]
  · exact ⟨by decide, by decide⟩
  · exact ⟨by decide, by decide⟩
  · exact ⟨rfl, rfl⟩

/-- The flag written by an add, by a block load and by a load into `V[15]`. -/
theorem witness_OnlyTheseWriteTheFlagRegister :
    (∃ t, exec (.addValue 1 1) State.reset = .next t ∧ readV t 15 ≠ readV State.reset 15) ∧
    (∃ t, exec (.loadRegisters 15) State.reset = .next t ∧ readV t 15 ≠ readV State.reset 15) ∧
    (∃ t, exec (.loadValue 15 1) State.reset = .next t ∧ readV t 15 ≠ readV State.reset 15) :=
  ⟨⟨_, rfl, by decide⟩, ⟨_, exec_loadRegisters_eq (by decide), by decide⟩, ⟨_, rfl, by decide⟩⟩

theorem witness_HowEachInstructionMovesPc :
    (∃ t, exec (.jump 0xFFF) State.reset = .next t) ∧ (∃ t, exec (.call 0xFFF) State.reset = .next t) ∧
    (∃ t, exec .ret { State.reset with sp := 32 } = .next t) ∧ (∃ t, exec (.jumpRelative 0xFFF) State.reset = .next t) ∧
    (∃ t, exec (.skipIfKeyPressed 0) State.reset = .next t) ∧ (∃ t, exec (.storeBcd 0) State.reset = .next t) :=
  ⟨⟨_, rfl⟩, ⟨_, exec_call_eq 0xFFF (by decide)⟩, ⟨_, exec_ret_eq 31 (by decide)⟩, ⟨_, exec_jumpRelative_eq (by decide)⟩,
    ⟨_, (exec_keySkips_eq 0 (by decide)).1⟩, ⟨_, exec_storeBcd_eq 0 (by decide)⟩⟩

/-- For each clause an instruction that changes that piece of state. -/
theorem witness_WhichInstructionsWriteWhat :
    (∃ t, exec (.addToIndex 0) (regs [(0, 1)]) = .next t ∧ t.i ≠ (regs [(0, 1)]).i) ∧
    (∃ t, exec .ret { State.reset with sp := 1 } = .next t ∧ t.sp ≠ 1) ∧
    (∃ t, exec (.storeRegisters 0) State.reset = .next t ∧ t.mem ≠ State.reset.mem) ∧
    (∃ t, exec .clearScreen { State.reset with screen := flipPixel blankScreen 0 0 } = .next t ∧
      t.screen ≠ flipPixel blankScreen 0 0) ∧
    (∃ t, exec (.setDelayTimer 0) (regs [(0, 1)]) = .next t ∧ t.dt ≠ (regs [(0, 1)]).dt) ∧
    (∃ t, exec (.setSoundTimer 0) (regs [(0, 1)]) = .next t ∧ t.st ≠ (regs [(0, 1)]).st) ∧
    (∃ t, exec (.random 0 0) State.reset = .next t ∧ t.draws ≠ State.reset.draws) :=
  ⟨⟨_, rfl, by decide⟩, ⟨_, exec_ret_eq 0 (by decide), by decide⟩, ⟨_, exec_storeRegisters_eq (by decide), by decide⟩,
    ⟨_, rfl, by decide⟩, ⟨_, rfl, by decide⟩, ⟨_, rfl, by decide⟩, ⟨_, rfl, by decide⟩⟩

theorem witness_KeysSoundAndCycleAreNotRead :
    (∀ x, Instr.nop ≠ .skipIfKeyPressed x ∧ Instr.nop ≠ .skipIfKeyNotPressed x ∧ Instr.nop ≠ .waitForKey x) ∧
    ∀ x, Instr.readDelayTimer 0 ≠ .setSoundTimer x :=
  ⟨fun _ => ⟨Instr.noConfusion, Instr.noConfusion, Instr.noConfusion⟩, fun _ => Instr.noConfusion⟩

/-- The five instructions one byte past their span or target. -/
theorem witness_MemoryErrorsExactlyAndNoRefusal :
    exec (.draw 0 0 0) { State.reset with i := 4097 } = .fault .memoryAccessError ∧
    exec (.storeBcd 0) { State.reset with i := 4094 } = .fault .memoryAccessError ∧
    exec (.storeRegisters 15) { State.reset with i := 4081 } = .fault .memoryAccessError ∧
    exec (.loadRegisters 0) { State.reset with i := 4096 } = .fault .memoryAccessError ∧
    exec (.jumpRelative 0xF01) (regs [(0, 0xFF)]) = .fault .memoryAccessError := by
  refine ⟨?_, ?_, ?_, ?_, ?_⟩ <;> rw [exec_eq_fault] <;> exact ⟨rfl, by decide⟩

/-- A run of one step that completes, from a state at the edges of the invariant. -/
theorem witness_RunsKeepMachineInvariant :
    Inv edgeState ∧ ∃ t : State, Host.Core.run Sys2Proof.core 1 edgeState = .next t := by
  obtain ⟨t, ht⟩ := witness_StepKeepsMachineInvariant.2
  exact ⟨inv_edgeState, t, run_succ_of_next 0 ht⟩

/-- A state with the invariant that differs from reset in registers, `PC` and one memory write alone. -/
theorem inv_of_reset (v : Vector Byte Config.numRegs) (pc : Word) (mem : Memory) (hp : pc.toNat ≤ 4098) (hm : mem.wf = true) :
    Inv { State.reset with v := v, pc := pc, mem := mem } :=
  ⟨hm, hp, fun k hk => absurd hk (Nat.not_lt_zero k.val), timerDivider_pos⟩

/-- Runs of one step that end in an error: at both ends of the list of `PC` payloads, on an illegal opcode, on an empty
stack, past the top of memory and on a key number of 16. -/
theorem witness_RunsEndOnlyInTheseErrors :
    (Inv { State.reset with pc := 4095 } ∧ step { State.reset with pc := 4095 } = .fault (.programCounterOutOfBounds 4095)) ∧
    (Inv { State.reset with pc := 4098 } ∧ step { State.reset with pc := 4098 } = .fault (.programCounterOutOfBounds 4098)) ∧
    (Inv (at_ State.reset 0x8128) ∧ step (at_ State.reset 0x8128) = .fault (.invalidInstruction 0x8128)) ∧
    (Inv (at_ State.reset 0x00EE) ∧ step (at_ State.reset 0x00EE) = .fault .callStackEmpty) ∧
    (Inv (at_ (regs [(0, 0xFF)]) 0xBF01) ∧ step (at_ (regs [(0, 0xFF)]) 0xBF01) = .fault .memoryAccessError) ∧
    (Inv (at_ (regs [(1, 16)]) 0xE19E) ∧ step (at_ (regs [(1, 16)]) 0xE19E) = .fault (.invalidInputKey 16)) ∧
    ∀ (s : State) (e : Fault), step s = .fault e → Host.Core.run Sys2Proof.core 1 s = .fault e :=
  ⟨⟨inv_of_reset _ 4095 _ (by decide) rfl, rfl⟩, ⟨inv_of_reset _ 4098 _ (by decide) rfl, rfl⟩,
    ⟨inv_of_reset _ 0x200 _ (by decide) (by decide), rfl⟩, ⟨inv_of_reset _ 0x200 _ (by decide) (by decide), witness_CallStackErrors.2.2.2.2.2⟩,
    ⟨inv_of_reset _ 0x200 _ (by decide) (by decide), by
      rw [step, stepWith_eq Config.timerDivider (op := 0xBF01) (i := .jumpRelative 0xF01) ⟨by decide, by decide⟩ (by decide) rfl,
        thenUpdate_eq_fault, exec_eq_fault]; exact ⟨rfl, by decide⟩⟩,
    ⟨inv_of_reset _ 0x200 _ (by decide) (by decide), by
      rw [step, stepWith_eq Config.timerDivider (op := 0xE19E) (i := .skipIfKeyPressed 1) ⟨by decide, by decide⟩ (by decide) rfl,
        thenUpdate_eq_fault, exec_eq_fault]; exact ⟨by decide, by decide⟩⟩,
    fun _ _ h => run_succ_of_fault 0 h⟩

/-- Opcodes that are safe, unsafe and illegal, fetched. -/
theorem witness_StepIsSafeExactlyWhen :
    Fetches (at_ State.reset 0x2300) 0x2300 ∧ decodeWord 0x2300 = .ok (.call 0x300) ∧
    Fetches (at_ State.reset 0x00EE) 0x00EE ∧ decodeWord 0x00EE = .ok .ret ∧
    Fetches (at_ State.reset 0x8128) 0x8128 ∧ decodeWord 0x8128 = .error (.invalidInstruction 0x8128) :=
  ⟨⟨by decide, by decide⟩, by decide, ⟨by decide, by decide⟩, by decide, ⟨by decide, by decide⟩, by decide⟩

end Sys2Proof.Tests
end

section
/-! The `current_state()` command (10_state.md R36). -/

namespace Sys2Proof.Machine

/-- R36: the command answers with the view of the state it is given, and hands that very state back. -/
@[simp] theorem runCommand_currentState (s : State) : runCommand .currentState s = (s, .view (currentState s)) := rfl

/-- Settles O23: the view that the command answers with is `currentState s`, and each of its ten fields is by definition
the field of the state that R36 names. -/
theorem currentStateShowsTenFields : Obligations.CurrentStateShowsTenFields := fun s =>
  ⟨currentState s, runCommand_currentState s, fun _ => rfl, rfl, rfl, rfl, rfl, rfl, rfl, rfl, rfl, rfl⟩

end Sys2Proof.Machine
end

section
/-! The plain classes of the decoder (30_encoding.md R76 to R85): what a packed word decodes to, for every class-F table,
and the same for the opcode written as a number. -/

namespace Sys2Proof

/-! ## Packed words, by shape -/

/-- R76, with the whole word compared through its twelve low bits. -/
@[simp] theorem decodeWordWith_class0 (t : ClassFBytes) (nnn : Addr) :
    decodeWordWith t (packNNN 0x0#4 nnn) =
      .ok (if nnn.toNat = 0x0E0 then .clearScreen else if nnn.toNat = 0x0EE then .ret else .nop) := by
  have hword (w : Word) : packNNN 0x0#4 nnn = w ↔ nnn.toNat = w.toNat := by
    simp [BitVec.toNat_eq, packNNN_toNat]
  simp [decodeWordWith, decodeClass0, hword]

/-- R77, R82: the four classes that carry `nnn`. -/
@[simp] theorem decodeWordWith_packNNN (t : ClassFBytes) (nnn : Addr) :
    decodeWordWith t (packNNN 0x1#4 nnn) = .ok (.jump nnn) ∧
    decodeWordWith t (packNNN 0x2#4 nnn) = .ok (.call nnn) ∧
    decodeWordWith t (packNNN 0xA#4 nnn) = .ok (.setIndex nnn) ∧
    decodeWordWith t (packNNN 0xB#4 nnn) = .ok (.jumpRelative nnn) := by
  simp [decodeWordWith]

/-- R78, R80, R83: the five classes that carry `x` and `kk`. -/
@[simp] theorem decodeWordWith_packXKK (t : ClassFBytes) (x : Reg) (kk : Byte) :
    decodeWordWith t (packXKK 0x3#4 x kk) = .ok (.skipIfEqualValue x kk) ∧
    decodeWordWith t (packXKK 0x4#4 x kk) = .ok (.skipIfNotEqualValue x kk) ∧
    decodeWordWith t (packXKK 0x6#4 x kk) = .ok (.loadValue x kk) ∧
    decodeWordWith t (packXKK 0x7#4 x kk) = .ok (.addValue x kk) ∧
    decodeWordWith t (packXKK 0xC#4 x kk) = .ok (.random x kk) := by
  simp [decodeWordWith]

/-- R85: class E, where `kk` selects and is not carried. -/
@[simp] theorem decodeWordWith_classE (t : ClassFBytes) (x : Reg) (kk : Byte) :
    decodeWordWith t (packXKK 0xE#4 x kk) =
      if kk.toNat = 0x9E then .ok (.skipIfKeyPressed x) else if kk.toNat = 0xA1 then .ok (.skipIfKeyNotPressed x)
      else .error (.invalidInstruction (packXKK 0xE#4 x kk)) := by
  simp [decodeWordWith, decodeClassE, BitVec.toNat_eq]

/-- R84: class D. -/
@[simp] theorem decodeWordWith_classD (t : ClassFBytes) (x y : Reg) (n : SpriteLen) :
    decodeWordWith t (packXYN 0xD#4 x y (BitVec.ofFin (w := 4) n)) = .ok (.draw x y n) := by
  simp [decodeWordWith]

/-! ## From the packed word to the opcode as a number -/

theorem decodeWord_ofNat_nnn (c : BitVec 4) (nnn : Addr) :
    decodeWord (BitVec.ofNat 16 (c.toNat * 4096 + nnn.toNat)) = decodeWordWith classFBytes (packNNN c nnn) := by
  rw [packNNN_eq_ofNat, decodeWord]

theorem decodeWord_ofNat_xkk (c : BitVec 4) (x : Reg) (kk : Byte) :
    decodeWord (BitVec.ofNat 16 (c.toNat * 4096 + x.val * 256 + kk.toNat)) =
      decodeWordWith classFBytes (packXKK c x kk) := by
  rw [packXKK_eq_ofNat, decodeWord]

theorem decodeWord_ofNat_xyn (c : BitVec 4) (x y : Reg) (n : Fin 16) :
    decodeWord (BitVec.ofNat 16 (c.toNat * 4096 + x.val * 256 + y.val * 16 + n.val)) =
      decodeWordWith classFBytes (packXYN c x y (BitVec.ofFin (w := 4) n)) :=
  congrArg decodeWord (packXYN_eq_ofNat c x y (BitVec.ofFin (w := 4) n))

/-! ## The obligation -/

/-- Settles O2: each opcode is a packed word of its class, whose fields are the operands. -/
theorem plainClassesDecode : Obligations.PlainClassesDecode := by
  refine ⟨fun nnn => ?_, fun nnn => ?_, fun x kk => ?_, fun x y n => ?_⟩
  · have h0 := decodeWord_ofNat_nnn 0x0#4 nnn
    rwa [BitVec.toNat_zero, Nat.zero_mul, Nat.zero_add, decodeWordWith_class0] at h0
  · obtain ⟨h1, h2, hA, hB⟩ := decodeWordWith_packNNN classFBytes nnn
    exact ⟨(decodeWord_ofNat_nnn 0x1 nnn).trans h1, (decodeWord_ofNat_nnn 0x2 nnn).trans h2,
      (decodeWord_ofNat_nnn 0xA nnn).trans hA, (decodeWord_ofNat_nnn 0xB nnn).trans hB⟩
  · obtain ⟨h3, h4, h6, h7, hC⟩ := decodeWordWith_packXKK classFBytes x kk
    have hE := decodeWordWith_classE classFBytes x kk
    rw [← packXKK_eq_ofNat] at hE
    exact ⟨(decodeWord_ofNat_xkk 0x3 x kk).trans h3, (decodeWord_ofNat_xkk 0x4 x kk).trans h4,
      (decodeWord_ofNat_xkk 0x6 x kk).trans h6, (decodeWord_ofNat_xkk 0x7 x kk).trans h7,
      (decodeWord_ofNat_xkk 0xC x kk).trans hC, hE⟩
  · exact (decodeWord_ofNat_xyn 0xD x y n).trans (decodeWordWith_classD classFBytes x y n)

end Sys2Proof
end

section
/-! The errors of stages 1 and 2 (40_step_cycle.md R101 to R103): when the step ends in one, and the state it leaves. -/

namespace Sys2Proof.Machine

/-! ## Stage 1: the bounds check -/

/-- R101: the first stage stops the step before anything is fetched. -/
theorem stepWith_of_pcOutOfBounds (n : Nat) {s : State} (h : 4096 ≤ s.pc.toNat + 1) :
    stepWith n s = .fault (.programCounterOutOfBounds s.pc) := by
  simp only [stepWith, (pcOutOfBounds_iff s).2 h, if_true, raise]

/-- The error of stage 1 is no effect's (60_exceptions.md R203). -/
theorem exec_ne_programCounterOutOfBounds (i : Instr) (s : State) (p : Word) :
    exec i s ≠ .fault (.programCounterOutOfBounds p) := by
  rw [Ne, exec_eq_fault]
  cases i <;> simp [raisedBy]

/-- Only stage 1 raises ProgramCounterOutOfBounds. -/
theorem stepWith_ne_programCounterOutOfBounds (n : Nat) {s : State} (h : s.pc.toNat + 1 < 4096) (p : Word) :
    stepWith n s ≠ .fault (.programCounterOutOfBounds p) := by
  obtain ⟨hpc, -⟩ | ⟨op, -, -, hs⟩ | ⟨op, i, -, -, -, hs⟩ | ⟨op, i, -, -, -, hs⟩ := stepWith_cases n s
  · omega
  · simp [hs]
  · simp [hs]
  · rw [hs, Ne, thenUpdate_eq_fault]
    exact exec_ne_programCounterOutOfBounds i (advancePc s) p

/-! ## Stage 2: the decode -/

/-- R103: an opcode that does not decode ends the step with the opcode as payload. -/
theorem stepWith_of_decodeWord_error (n : Nat) {s : State} {op : Word} {e : DecodeError} (hf : Fetches s op)
    (hd : decodeWord op = .error e) : stepWith n s = .fault (.invalidInstruction op) := by
  obtain ⟨hpc, hop⟩ := (fetches_iff s op).1 hf
  obtain rfl := decodeWord_error hd
  simp only [stepWith, hpc, hop, hd, Bool.false_eq_true, if_false, raise, faultOfDecode]

/-! ## The command -/

/-- R109: the `step` command answers with the step's error, and `stateLeftBy` says what it leaves. -/
theorem runCommand_step_of_fault {s : State} {e : Fault} (h : step s = .fault e) :
    runCommand .step s = (stateLeftBy e s, .error e) := by
  simp only [runCommand, runCommandWith, stepCommand, h]

/-! ## The obligations -/

/-- Settles O9: the first stage raises the error, and of the later stages the decode raises another one and no effect
raises this one. -/
theorem programCounterBoundsCheck : Obligations.ProgramCounterBoundsCheck := by
  refine fun s => ⟨fun hout => ?_, fun hin p => stepWith_ne_programCounterOutOfBounds Config.timerDivider hin p⟩
  have hstep : step s = .fault (.programCounterOutOfBounds s.pc) := stepWith_of_pcOutOfBounds Config.timerDivider hout
  exact ⟨hstep, runCommand_step_of_fault hstep⟩

/-- Settles O10: the fetch reads the opcode that the two bytes at `PC` make, and the second stage raises the error before
`PC` is advanced. -/
theorem invalidOpcodeEndsStepUnchanged : Obligations.InvalidOpcodeEndsStepUnchanged := by
  refine fun s op hf => ⟨((fetches_iff s op).1 hf).2, fun e hd => ?_⟩
  have hstep : step s = .fault (.invalidInstruction op) := stepWith_of_decodeWord_error Config.timerDivider hf hd
  exact ⟨hstep, runCommand_step_of_fault hstep⟩

end Sys2Proof.Machine
end

section
/-! Nop and Jump (41_flow.md R120, R122): what their effects answer, and the step that fetches one of them. -/

namespace Sys2Proof.Machine

/-! ## The effects -/

/-- R120. -/
@[simp] theorem exec_nop (s : State) : exec .nop s = .next s := rfl

/-- R122: no condition on the target. -/
@[simp] theorem exec_jump (nnn : Addr) (s : State) : exec (.jump nnn) s = .next (setPc s (zextAddr nnn)) := rfl

/-- The frame of every instruction that only moves `PC`. -/
theorem registerFrame_setPc (d : List Reg) (s : State) (p : Word) : RegisterFrame d s (setPc s p) :=
  ⟨fun r _ => readV_setPc s p r, fun _ => rfl, fun _ _ => rfl, ⟨rfl, fun _ => rfl⟩, ⟨rfl, rfl⟩, ⟨rfl, rfl, rfl⟩, rfl⟩

theorem zextAddr_eq_ofNat (nnn : Addr) : zextAddr nnn = BitVec.ofNat 16 nnn.toNat := by
  rw [← zextAddr_toNat, BitVec.ofNat_toNat, BitVec.setWidth_eq]

/-! ## The step -/

/-- A step whose instruction does not block and whose effect completes ends with the timer stage (40_step_cycle.md
R106, R107). -/
theorem step_of_exec_next {s t : State} {op : Word} {i : Instr} (hf : Fetches s op) (hd : decodeWord op = .ok i)
    (hb : blocks i s = false) (he : exec i (advancePc s) = .next t) :
    step s = .next (updateTimersWith Config.timerDivider t) := by
  rw [step, stepWith_eq Config.timerDivider hf hd hb, he, thenUpdate]

/-- R101, for a `PC` known by its value. -/
theorem step_of_pc_eq_outOfBounds {s : State} {p : Word} (hpc : s.pc = p) (hp : 4096 ≤ p.toNat + 1) :
    step s = .fault (.programCounterOutOfBounds p) := by
  subst hpc
  exact stepWith_of_pcOutOfBounds Config.timerDivider hp

/-! ## The obligations -/

/-- Settles O27: the effect answers the state with the advanced `PC`, the timer stage keeps that `PC`, and after 4094 it
is 4096, which the next bounds check refuses. -/
theorem nopOnlyAdvances : Obligations.NopOnlyAdvances := by
  intro nnn hClear hRet
  obtain ⟨hclass0, -⟩ := plainClassesDecode
  have hdecode : decodeWord (BitVec.ofNat 16 nnn.toNat) = .ok .nop := by
    rw [hclass0, if_neg hClear, if_neg hRet]
  refine ⟨hdecode, exec_nop, fun s hf => ⟨step_of_exec_next hf hdecode rfl (exec_nop _), fun hlast => ?_⟩⟩
  have hpc : s.pc + 2 = 4096 := by bv_omega
  exact step_of_pc_eq_outOfBounds hpc (by decide)

/-- Settles O28: the effect sets `PC` whatever it was, so it overwrites the advance, and a target of 4095 is refused by
the next bounds check only. -/
theorem jumpLoadsPc : Obligations.JumpLoadsPc := by
  intro nnn
  obtain ⟨-, hclassNnn, -⟩ := plainClassesDecode
  obtain ⟨hdecode, -⟩ := hclassNnn nnn
  refine ⟨hdecode, fun s => ⟨_, exec_jump nnn s, zextAddr_toNat nnn, registerFrame_setPc [] s _, fun hmax => ?_⟩,
    fun s hf => ?_⟩
  · have hpc : zextAddr nnn = 4095 := BitVec.eq_of_toNat_eq ((zextAddr_toNat nnn).trans hmax)
    exact step_of_pc_eq_outOfBounds hpc (by decide)
  · rw [← zextAddr_eq_ofNat]
    exact step_of_exec_next hf hdecode rfl (exec_jump nnn (advancePc s))

end Sys2Proof.Machine
end

section
/-! SetIndex (44_index_memory.md R161), and the frame of a write to the index register. -/

namespace Sys2Proof.Machine

/-- R161: no flag and no error. -/
@[simp] theorem exec_setIndex (nnn : Addr) (s : State) :
    exec (.setIndex nnn) s = .next { s with i := zextAddr nnn } := rfl

/-- The frame of every instruction that writes `I` alone. -/
theorem keeps_indexWrite (s : State) (w : Word) :
    KeepsRegistersBut [] s { s with i := w } ∧ KeepsMemory s { s with i := w } ∧ KeepsScreen s { s with i := w } ∧
      KeepsStack s { s with i := w } ∧ KeepsTimers s { s with i := w } ∧ KeepsHidden s { s with i := w } :=
  ⟨fun _ _ => rfl, fun _ => rfl, fun _ _ => rfl, ⟨rfl, fun _ => rfl⟩, ⟨rfl, rfl⟩, ⟨rfl, rfl, rfl⟩⟩

/-- Settles O40: the opcode is one of the classes that carry `nnn`, the zero extension keeps its value, and the effect
writes `I` alone. -/
theorem setIndexLoadsI : Obligations.SetIndexLoadsI := by
  intro nnn
  obtain ⟨-, hclassNnn, -⟩ := plainClassesDecode
  obtain ⟨-, -, hdecode, -⟩ := hclassNnn nnn
  exact ⟨hdecode, fun s => ⟨_, exec_setIndex nnn s, zextAddr_toNat nnn, rfl, keeps_indexWrite s (zextAddr nnn)⟩⟩

end Sys2Proof.Machine
end

section
/-! The errors of the effects and of the step (60_exceptions.md R204, R206): which instruction raises which, and what a
failed step can have failed with. -/

namespace Sys2Proof.Machine

/-! ## Who raises which error -/

/-- R204: only Call raises CallStackDepthExceeded. -/
theorem raisedBy_callStackDepthExceeded (i : Instr) (s : State) :
    raisedBy i s .callStackDepthExceeded ↔ (∃ nnn, i = .call nnn) ∧ s.sp.val = 32 := by
  cases i <;> simp [raisedBy]

/-- R204: only Return raises CallStackEmpty. -/
theorem raisedBy_callStackEmpty (i : Instr) (s : State) : raisedBy i s .callStackEmpty ↔ i = .ret ∧ s.sp.val = 0 := by
  cases i <;> simp [raisedBy]

/-- R206: only the two key skips raise InvalidInputKey. -/
theorem raisedBy_invalidInputKey (i : Instr) (s : State) (b : Byte) :
    raisedBy i s (.invalidInputKey b) ↔
      ∃ x, (i = .skipIfKeyPressed x ∨ i = .skipIfKeyNotPressed x) ∧ b = readV s x ∧ 15 < b.toNat := by
  cases i
  case skipIfKeyPressed | skipIfKeyNotPressed =>
    simp +contextual [raisedBy]
  all_goals simp [raisedBy]

/-- R206: the effect of WaitForKey raises ExpectingInputKey under the very condition of the blocking test (R104). -/
theorem raisedBy_expectingInputKey (i : Instr) (s : State) : raisedBy i s .expectingInputKey ↔ blocks i s = true := by
  cases i <;> simp [raisedBy, blocks]

/-- R201: no effect raises RomTooLarge. -/
theorem not_raisedBy_romTooLarge (i : Instr) (s : State) : ¬ raisedBy i s .romTooLarge := by
  cases i <;> simp [raisedBy]

/-! ## What a step fails with -/

/-- The blocking test reads `KEYS` alone, so the advance does not change its answer. -/
@[simp] theorem blocks_advancePc (i : Instr) (s : State) : blocks i (advancePc s) = blocks i s := by
  cases i <;> rfl

/-- Every error of a step is that of stage 1, that of stage 2, or one that the effect of an instruction that passed the
blocking test raises (40_step_cycle.md R108). -/
theorem step_fault_cases {s : State} {e : Fault} (h : step s = .fault e) :
    e = .programCounterOutOfBounds s.pc ∨ (∃ op, e = .invalidInstruction op) ∨
      ∃ i, blocks i s = false ∧ raisedBy i (advancePc s) e := by
  rw [step] at h
  obtain ⟨-, hs⟩ | ⟨op, -, -, hs⟩ | ⟨op, i, -, -, -, hs⟩ | ⟨op, i, -, -, hb, hs⟩ := stepWith_cases Config.timerDivider s
    <;> rw [hs] at h
  · exact .inl (Host.Outcome.fault.inj h).symm
  · exact .inr (.inl ⟨op, (Host.Outcome.fault.inj h).symm⟩)
  · cases h
  · exact .inr (.inr ⟨i, hb, (exec_eq_fault _ _ _).1 (thenUpdate_eq_fault.1 h)⟩)

/-- R206: stage 3 keeps the one state in which WaitForKey fails away from the effect. -/
theorem step_ne_expectingInputKey (s : State) : step s ≠ .fault .expectingInputKey := by
  intro h
  obtain he | ⟨op, he⟩ | ⟨i, hpasses, hraises⟩ := step_fault_cases h
  · cases he
  · cases he
  · rw [raisedBy_expectingInputKey, blocks_advancePc, hpasses] at hraises
    cases hraises

/-- R201: RomTooLarge is an error of the host's `load` alone. -/
theorem step_ne_romTooLarge (s : State) : step s ≠ .fault .romTooLarge := by
  intro h
  obtain he | ⟨op, he⟩ | ⟨i, -, hraises⟩ := step_fault_cases h
  · cases he
  · cases he
  · exact not_raisedBy_romTooLarge i _ hraises

/-- Stage 4 moves `PC` alone. -/
theorem keepsStack_advancePc (s : State) : KeepsStack s (advancePc s) := ⟨rfl, fun _ => rfl⟩

/-! ## The obligations -/

/-- Settles O33: `raisedBy` has each of the two errors under one instruction and one `SP`, and the failed step leaves
the state with the advanced `PC`. -/
theorem callStackErrors : Obligations.CallStackErrors := by
  refine ⟨fun s nnn hfull => ?_, fun s hempty => ?_, fun s i h => ?_, fun s i h => ?_, fun s e he h => ?_⟩
  · rw [exec_eq_fault, raisedBy_callStackDepthExceeded]
    exact ⟨⟨nnn, rfl⟩, hfull⟩
  · rw [exec_eq_fault, raisedBy_callStackEmpty]
    exact ⟨rfl, hempty⟩
  · rwa [exec_eq_fault, raisedBy_callStackDepthExceeded] at h
  · rwa [exec_eq_fault, raisedBy_callStackEmpty] at h
  · have hleft : stateLeftBy e s = advancePc s := by
      obtain rfl | rfl := he <;> rfl
    exact ⟨advancePc s, hleft ▸ runCommand_step_of_fault h, advancePc_pc s, keepsStack_advancePc s⟩

/-- Settles O52: `raisedBy` has InvalidInputKey under the two key skips alone, and ExpectingInputKey under the condition
of the blocking test, so a step that meets it ends as blocked before the effect. -/
theorem keyErrorsRaisedOnlyHere : Obligations.KeyErrorsRaisedOnlyHere := by
  refine ⟨fun s i b => ?_, fun s i => ?_, step_ne_expectingInputKey⟩
  · rw [exec_eq_fault, raisedBy_invalidInputKey]
  · rw [exec_eq_fault, raisedBy_expectingInputKey, blocks_iff]

end Sys2Proof.Machine
end

section
/-! The host's commands `load` (60_exceptions.md R201, 70_reset_and_hazards.md R233), `peek_instruction` (60_exceptions.md
R217), `set_input_keys` (R213) and `is_sound_active` (R214). -/

namespace Sys2Proof.Machine

/-! ## load -/

/-- R233: a ROM that fits is written from 0x200 on. -/
theorem runCommand_load_of_fits {rom : List Byte} (h : rom.length ≤ 3584) (s : State) :
    runCommand (.load rom) s = ({ s with mem := s.mem.writeBytes 0x200 rom }, .ok) := by
  have hfits : ¬ rom.length > Config.maxRomLen := Nat.not_lt.2 h
  simp only [runCommand, runCommandWith, loadRom, hfits, if_false, Config.programBase]

/-- R201: a longer ROM is an error, and nothing is written. -/
theorem runCommand_load_of_tooLarge {rom : List Byte} (h : 3584 < rom.length) (s : State) :
    runCommand (.load rom) s = (s, .error .romTooLarge) := by
  have hlarge : rom.length > Config.maxRomLen := h
  simp only [runCommand, runCommandWith, loadRom, hlarge, if_true]

/-- Settles O20: the load is a span write at 0x200, so the laws of a span write say what memory reads afterwards. -/
theorem loadCopiesTheRom : Obligations.LoadCopiesTheRom := by
  refine fun rom s => ⟨fun hfits => ?_, fun hlarge => runCommand_load_of_tooLarge hlarge s, step_ne_romTooLarge s⟩
  exact ⟨_, runCommand_load_of_fits hfits s, fun k hk => Memory.read_writeBytes_inside s.mem 0x200 k rom hk,
    fun a ha => Memory.read_writeBytes_outside s.mem 0x200 a rom ha, rfl⟩

/-! ## peek_instruction -/

/-- R217: the bound of the peek. -/
theorem runCommand_peekInstruction_of_outside {a : Nat} (h : 4094 ≤ a) (s : State) :
    runCommand (.peekInstruction a) s = (s, .error .memoryAccessError) := by
  have hout : a ≥ Config.memSize - 2 := h
  simp only [runCommand, runCommandWith, peekInstruction, hout, if_true]

/-- R217: below the bound the answer is the decoding of the opcode that the two bytes make, read as `decodeWord` answers
it. -/
theorem runCommand_peekInstruction_of_inside {a : Nat} (h : a < 4094) {s : State} {op : Word}
    (hop : op.toNat = (s.mem.read a).toNat * 256 + (s.mem.read (a + 1)).toNat) :
    (∀ i, decodeWord op = .ok i → runCommand (.peekInstruction a) s = (s, .instruction i)) ∧
    (∀ e, decodeWord op = .error e → runCommand (.peekInstruction a) s = (s, .error (.invalidInstruction op))) := by
  have hin : ¬ a ≥ Config.memSize - 2 := Nat.not_le.2 h
  have hbytes : opcodeOf (s.mem.read a) (s.mem.read (a + 1)) = op :=
    BitVec.eq_of_toNat_eq ((opcodeOf_toNat _ _).trans hop.symm)
  constructor
  · intro i hd
    simp only [runCommand, runCommandWith, peekInstruction, hin, if_false, hbytes, hd]
  · intro e hd
    obtain rfl := decodeWord_error hd
    simp only [runCommand, runCommandWith, peekInstruction, hin, if_false, hbytes, hd, faultOfDecode]

/-- Settles O21: the two sides of the bound, and after a load the two bytes at 0x200 are the ROM's first two. -/
theorem peekDecodesWithoutChange : Obligations.PeekDecodesWithoutChange := by
  refine ⟨fun a s => ⟨fun hout => runCommand_peekInstruction_of_outside hout s,
    fun hin op hop => runCommand_peekInstruction_of_inside hin hop⟩, fun b0 b1 rest s hlen op hop => ?_⟩
  obtain ⟨hload, -⟩ := loadCopiesTheRom (b0 :: b1 :: rest) s
  obtain ⟨t, ht, hbytes, -⟩ := hload hlen
  have hb0 : t.mem.read 0x200 = b0 := hbytes 0 (by simp)
  have hb1 : t.mem.read (0x200 + 1) = b1 := hbytes 1 (by simp)
  obtain ⟨hok, herror⟩ := runCommand_peekInstruction_of_inside (a := 0x200) (by decide) (hb0 ▸ hb1 ▸ hop)
  rw [ht]
  exact ⟨fun i hd => congrArg Prod.snd (hok i hd), fun e hd => congrArg Prod.snd (herror e hd)⟩

/-! ## set_input_keys and is_sound_active -/

@[simp] theorem runCommand_setInputKeys (mask : Nat) (s : State) :
    runCommand (.setInputKeys mask) s = (setInputKeys mask s, .ok) := rfl

@[simp] theorem runCommand_isSoundActive (s : State) :
    runCommand .isSoundActive s = (s, .sound (isSoundActive s)) := rfl

/-- R213: key `k` is held exactly when bit `k` of the mask is set, whatever the mask's bits from 16 up. -/
@[simp] theorem keyHeld_setInputKeys (mask : Nat) (s : State) (k : Fin 16) :
    keyHeld (setInputKeys mask s) k = mask.testBit k.val := by
  have hk : k.val < 16 := k.isLt
  simp only [keyHeld, setInputKeys_keys, BitVec.getLsbD_ofNat, hk, decide_true, Bool.true_and]

/-- R214. -/
theorem isSoundActive_iff (s : State) : isSoundActive s = true ↔ 1 < s.st.toNat := decide_eq_true_iff

/-- Settles O22: the mask becomes `KEYS` bit by bit and no other field is touched; the sound output is a comparison. -/
theorem keyMaskAndSoundOutput : Obligations.KeyMaskAndSoundOutput :=
  ⟨fun mask s => ⟨setInputKeys mask s, runCommand_setInputKeys mask s, keyHeld_setInputKeys mask s, rfl⟩,
    fun s => ⟨isSoundActive s, runCommand_isSoundActive s, isSoundActive_iff s⟩⟩

end Sys2Proof.Machine
end

section
/-! The host's command `reset` (70_reset_and_hazards.md R230, R231): it reads nothing of the state before it but the
model's own draw counter. -/

namespace Sys2Proof.Machine

/-- R231: the command has no error. -/
@[simp] theorem runCommandWith_reset (f : FontTable) (s : State) :
    runCommandWith f .reset s = (resetCommandWith f s, .ok) := rfl

/-- R230: whatever draw count `n` is put over the command's result, the rest of it is the reset state of the font. -/
theorem resetCommandWith_with_draws (f : FontTable) (s : State) (n : Nat) :
    { resetCommandWith f s with draws := n } = { State.resetWith f with draws := n } := rfl

/-- The draw counter is all that `reset` takes over from the state before it (notes/assumptions/25.md). -/
theorem resetCommandWith_congr (f : FontTable) {s t : State} (h : s.draws = t.draws) :
    resetCommandWith f s = resetCommandWith f t :=
  congrArg (fun n => { State.resetWith f with draws := n }) h

/-- Settles O19: with the draw counter set aside the result from any state is the reset state, and the second reset finds
the draw counter that the first one found. -/
theorem resetForgetsTheStateBefore : Obligations.ResetForgetsTheStateBefore := by
  intro f s s'
  simp only [runCommandWith_reset]
  have hreset (t : State) : { resetCommandWith f t with draws := 0 } = { State.resetWith f with draws := 0 } :=
    resetCommandWith_with_draws f t 0
  have htwice : resetCommandWith f (resetCommandWith f s) = resetCommandWith f s :=
    resetCommandWith_congr f (resetCommandWith_draws f s)
  exact ⟨trivial, (hreset s).trans (hreset s').symm, hreset s, congrArg (·, Response.ok) htwice⟩

end Sys2Proof.Machine
end

section
/-! The classes of the decoder that the spec decides (30_encoding.md R79, R81, R86; D4, D5, D6), for packed words, and the
round trip from an instruction to its opcode and back (R88). -/

namespace Sys2Proof

/-! ## Packed words of classes 5, 8, 9 and F -/

/-- R79: the low nibble of classes 5 and 9 plays no part (decision D6). -/
@[simp] theorem decodeWordWith_skipRegisters (t : ClassFBytes) (x y : Reg) (n : BitVec 4) :
    decodeWordWith t (packXYN 0x5#4 x y n) = .ok (.skipIfEqualRegister x y) ∧
    decodeWordWith t (packXYN 0x9#4 x y n) = .ok (.skipIfNotEqualRegister x y) := by
  simp [decodeWordWith]

/-- R81: class 8 is decoded without the class-F table. -/
theorem decodeWordWith_class8 (t : ClassFBytes) (x y : Reg) (n : BitVec 4) :
    decodeWordWith t (packXYN 0x8#4 x y n) = decodeClass8 (packXYN 0x8#4 x y n) := by
  simp [decodeWordWith]

/-- R86: class F is a search for the low byte in the table. -/
theorem decodeWordWith_classF (t : ClassFBytes) (x : Reg) (kk : Byte) :
    decodeWordWith t (packXKK 0xF#4 x kk) = decodeClassF t (packXKK 0xF#4 x kk) := by
  simp [decodeWordWith]

/-! ## The round trip -/

/-- With nine distinct bytes the search of class F stops at the byte it is given and not before (R86). -/
theorem decodeClassF_packXKK {t : ClassFBytes} (ht : t.wellFormed = true) (x : Reg) :
    decodeClassF t (packXKK 0xF#4 x t.readDelayTimer) = .ok (.readDelayTimer x) ∧
    decodeClassF t (packXKK 0xF#4 x t.waitForKey) = .ok (.waitForKey x) ∧
    decodeClassF t (packXKK 0xF#4 x t.setDelayTimer) = .ok (.setDelayTimer x) ∧
    decodeClassF t (packXKK 0xF#4 x t.setSoundTimer) = .ok (.setSoundTimer x) ∧
    decodeClassF t (packXKK 0xF#4 x t.addToIndex) = .ok (.addToIndex x) ∧
    decodeClassF t (packXKK 0xF#4 x t.selectCharacter) = .ok (.selectCharacter x) ∧
    decodeClassF t (packXKK 0xF#4 x t.storeBcd) = .ok (.storeBcd x) ∧
    decodeClassF t (packXKK 0xF#4 x t.storeRegisters) = .ok (.storeRegisters x) ∧
    decodeClassF t (packXKK 0xF#4 x t.loadRegisters) = .ok (.loadRegisters x) := by
  -- read from the end, the table says of each byte that it differs from every byte tried before it
  have hdistinct : t.toList.reverse.Nodup := List.nodup_reverse.2 (of_decide_eq_true ht)
  revert hdistinct
  simp +contextual [ClassFBytes.toList, decodeClassF]

/-- R88's first law for every well-formed table: each constructor is encoded in the shape of its class. -/
theorem decodeWordWith_encodeWith {t : ClassFBytes} (ht : t.wellFormed = true) (i : Instr) :
    decodeWordWith t (encodeWith t i) = .ok i := by
  cases i
  case readDelayTimer x | waitForKey x | setDelayTimer x | setSoundTimer x | addToIndex x | selectCharacter x |
      storeBcd x | storeRegisters x | loadRegisters x =>
    simp [encodeWith, decodeWordWith_classF, decodeClassF_packXKK ht x]
  case copy x y | or x y | and x y | xor x y | addRegister x y | subtractVxVy x y | shiftRight x y | subtractVyVx x y |
      shiftLeft x y =>
    simp [encodeWith, decodeWordWith_class8, decodeClass8]
  case nop => exact decodeWordWith_class0 t 0x000
  case clearScreen => exact decodeWordWith_class0 t 0x0E0
  case ret => exact decodeWordWith_class0 t 0x0EE
  all_goals simp [encodeWith]

/-- Decoding the two bytes of an opcode, whatever follows them, is decoding the opcode (R70). -/
theorem decodeBytes_wordBytes {op : Word} {i : Instr} (h : decodeWord op = .ok i) (rest : List Byte) :
    decodeBytes (wordBytes op ++ rest) = .ok (i, rest) := by
  simp [wordBytes, decodeBytes, h]

/-- Settles O5: every constructor is encoded in the shape of its class, whose fields the decoder reads back, and in
class F the table's bytes are told apart because they are distinct. -/
theorem decodeEncodeRoundTrip : Obligations.DecodeEncodeRoundTrip :=
  ⟨fun _ ht i => decodeWordWith_encodeWith ht i,
    fun i rest => decodeBytes_wordBytes (decodeWordWith_encodeWith (t := classFBytes) (by decide) i) rest⟩

/-! ## The decided classes, written as numbers -/

/-- Settles O3: each opcode is a packed word of its class, and the statement's two lists are those of the decoder. -/
theorem decidedClassesDecode : Obligations.DecidedClassesDecode := by
  refine ⟨fun x y n => ?_, fun x kk => ?_⟩
  · obtain ⟨h5, h9⟩ := decodeWordWith_skipRegisters classFBytes x y (BitVec.ofFin (w := 4) n)
    refine ⟨(decodeWord_ofNat_xyn 0x5 x y n).trans h5, (decodeWord_ofNat_xyn 0x9 x y n).trans h9, ?_⟩
    have hop : BitVec.ofNat 16 (0x8000 + x.val * 256 + y.val * 16 + n.val) =
        packXYN 0x8#4 x y (BitVec.ofFin (w := 4) n) :=
      packXYN_eq_ofNat 0x8#4 x y (BitVec.ofFin (w := 4) n)
    rw [hop, decodeWord, decodeWordWith_class8]
    -- nibble by nibble, since the statement's list is a match of its own
    obtain ⟨n, hn⟩ := n
    interval_cases n <;> simp [decodeClass8]
  · have hop : BitVec.ofNat 16 (0xF000 + x.val * 256 + kk.toNat) = packXKK 0xF#4 x kk := packXKK_eq_ofNat 0xF#4 x kk
    rw [hop, decodeWord, decodeWordWith_classF]
    simp only [decodeClassF, fieldX_packXKK, fieldKK_packXKK, classFBytes, BitVec.toNat_eq]
    symm
    split <;> simp_all

end Sys2Proof
end

section
/-! The decoder read from the opcode (30_encoding.md section 4, R87, R88, R92): which opcodes it rejects, and the row of the
mask-and-match table that each opcode selects. -/

namespace Sys2Proof

/-! ## Illegal opcodes -/

/-- R81: the low nibbles of class 8 that name no operation. -/
theorem decodeClass8_error_iff (op : Word) :
    (∃ e, decodeClass8 op = .error e) ↔ 8 ≤ op.toNat % 16 ∧ op.toNat % 16 ≠ 0xE := by
  rw [decodeClass8, fieldN_val]
  have hlt : op.toNat % 16 < 16 := Nat.mod_lt _ (by decide)
  generalize op.toNat % 16 = n at hlt
  interval_cases n <;> simp

/-- R85: class E has two low bytes. -/
theorem decodeClassE_error_iff (op : Word) :
    (∃ e, decodeClassE op = .error e) ↔ op.toNat % 256 ≠ 0x9E ∧ op.toNat % 256 ≠ 0xA1 := by
  simp only [decodeClassE, BitVec.toNat_eq, fieldKK_toNat]
  repeat' split
  all_goals simp_all

/-- R86: class F rejects the low bytes that are not in the table. -/
theorem decodeClassF_error_iff (t : ClassFBytes) (op : Word) :
    (∃ e, decodeClassF t op = .error e) ↔ fieldKK op ∉ t.toList := by
  simp only [decodeClassF, ClassFBytes.toList]
  repeat' split
  all_goals simp [*]

/-- R87, by the class of the opcode. -/
theorem decodeWordWith_error_iff (t : ClassFBytes) (op : Word) :
    (∃ e, decodeWordWith t op = .error e) ↔
      (op.toNat / 4096 = 0x8 ∧ ∃ e, decodeClass8 op = .error e) ∨
      (op.toNat / 4096 = 0xE ∧ ∃ e, decodeClassE op = .error e) ∨
      (op.toNat / 4096 = 0xF ∧ ∃ e, decodeClassF t op = .error e) := by
  rw [decodeWordWith, fieldClass_eq]
  have hlt : op.toNat / 4096 < 16 := by have := op.isLt; omega
  generalize op.toNat / 4096 = c at hlt
  interval_cases c <;> simp

/-- Settles O4: the classes that can reject are 8, E and F, and each rejects what its own dispatch does not list. -/
theorem illegalOpcodesAreExactlyThese : Obligations.IllegalOpcodesAreExactlyThese := by
  refine fun op => ⟨fun e => Machine.decodeWord_error, ?_⟩
  have hF : fieldKK op ∉ classFBytes.toList ↔
      op.toNat % 256 ∉ [0x07, 0x0A, 0x15, 0x18, 0x1E, 0x29, 0x33, 0x55, 0x65] := by
    simp [ClassFBytes.toList, classFBytes, BitVec.toNat_eq, fieldKK_toNat]
  rw [decodeWord, decodeWordWith_error_iff, decodeClass8_error_iff, decodeClassE_error_iff, decodeClassF_error_iff, hF]

/-! ## The row an opcode selects -/

@[simp] theorem rowOf_nil (op : Word) : rowOf [] op = none := rfl

@[simp] theorem rowOf_cons (r : OpcodeRow) (rows : List OpcodeRow) (op : Word) :
    rowOf (r :: rows) op = if r.selects op = true then some r else rowOf rows op := by
  simp only [rowOf, List.find?_cons]
  split <;> simp_all

/-- R92: a row that fixes the whole word. -/
@[simp] theorem selects_fullMask (name : String) (p ig op : Word) :
    OpcodeRow.selects ⟨name, 0xFFFF#16, p, ig⟩ op = true ↔ fieldClass op = p.toNat / 4096 ∧ op = p := by
  simp only [OpcodeRow.selects, and_fullMask, beq_iff_eq, iff_and_self]
  rintro rfl
  exact fieldClass_eq op

/-- A row that fixes the class nibble. -/
@[simp] theorem selects_classMask (name : String) (p ig op : Word) (h : p.toNat % 4096 = 0) :
    OpcodeRow.selects ⟨name, 0xF000#16, p, ig⟩ op = true ↔ fieldClass op = p.toNat / 4096 := by
  simp only [OpcodeRow.selects, beq_iff_eq, BitVec.toNat_eq, and_classMask_toNat, fieldClass_eq]
  omega

/-- A row that fixes the class and the low nibble. -/
@[simp] theorem selects_nibbleMask (name : String) (p ig op : Word) (h : p.toNat / 16 % 256 = 0) :
    OpcodeRow.selects ⟨name, 0xF00F#16, p, ig⟩ op = true ↔
      fieldClass op = p.toNat / 4096 ∧ (fieldN op).val = p.toNat % 16 := by
  simp only [OpcodeRow.selects, beq_iff_eq, BitVec.toNat_eq, and_nibbleMask_toNat, fieldClass_eq, fieldN_val]
  omega

/-- A row that fixes the class and the low byte. -/
@[simp] theorem selects_byteMask (name : String) (p ig op : Word) (h : p.toNat / 256 % 16 = 0) :
    OpcodeRow.selects ⟨name, 0xF0FF#16, p, ig⟩ op = true ↔
      fieldClass op = p.toNat / 4096 ∧ fieldKK op = p.setWidth 8 := by
  simp only [OpcodeRow.selects, beq_iff_eq, BitVec.toNat_eq, and_byteMask_toNat, fieldClass_eq, fieldKK_toNat,
    BitVec.toNat_setWidth]
  omega

/-- The same for a row of class F, whose low byte is the table's. -/
@[simp] theorem selects_classF (name : String) (kk : Byte) (ig op : Word) :
    OpcodeRow.selects ⟨name, 0xF0FF#16, opcodeOf 0xF0#8 kk, ig⟩ op = true ↔ fieldClass op = 0xF ∧ fieldKK op = kk := by
  rw [OpcodeRow.selects, and_byteMask_beq op 0xF0#8 kk (by decide), Bool.and_eq_true, decide_eq_true_eq,
    decide_eq_true_eq, fieldClass_eq]
  rfl

/-! ## An opcode put together from its fields -/

theorem packNNN_fields {op : Word} {c : BitVec 4} (hc : fieldClass op = c.toNat) : packNNN c (fieldNNN op) = op := by
  rw [BitVec.toNat_eq, packNNN_toNat, fieldNNN_toNat, ← hc, fieldClass_eq]
  omega

theorem packXKK_fields {op : Word} {c : BitVec 4} (hc : fieldClass op = c.toNat) :
    packXKK c (fieldX op) (fieldKK op) = op := by
  rw [BitVec.toNat_eq, packXKK_toNat, fieldX_val, fieldKK_toNat, ← hc, fieldClass_eq]
  omega

theorem packXYN_fields {op : Word} {c n : BitVec 4} (hc : fieldClass op = c.toNat) (hn : (fieldN op).val = n.toNat) :
    packXYN c (fieldX op) (fieldY op) n = op := by
  rw [BitVec.toNat_eq, packXYN_toNat, fieldX_val, fieldY_val, ← hn, fieldN_val, ← hc, fieldClass_eq]
  omega

/-- R88: with the low nibble discarded, the opcode is put together again exactly when that nibble is 0. -/
theorem packXYN_zero_eq_iff {op : Word} {c : BitVec 4} (hc : fieldClass op = c.toNat) :
    packXYN c (fieldX op) (fieldY op) 0#4 = op ↔ op &&& 0x000F#16 = 0#16 := by
  have hmask : (op &&& 0x000F#16).toNat = op.toNat % 16 := Nat.and_two_pow_sub_one_eq_mod op.toNat 4
  rw [BitVec.toNat_eq, BitVec.toNat_eq, hmask, packXYN_toNat, fieldX_val, fieldY_val, ← hc, fieldClass_eq,
    BitVec.toNat_ofNat, BitVec.toNat_ofNat]
  omega

/-- R88: with twelve bits discarded, a class-0 opcode is 0 exactly when they are. -/
theorem zero_eq_iff_of_class0 {op : Word} (hc : fieldClass op = 0) : 0#16 = op ↔ op &&& 0x0FFF#16 = 0#16 := by
  have hmask : (op &&& 0x0FFF#16).toNat = op.toNat % 4096 := Nat.and_two_pow_sub_one_eq_mod op.toNat 12
  rw [fieldClass_eq] at hc
  rw [BitVec.toNat_eq, BitVec.toNat_eq, hmask, BitVec.toNat_ofNat]
  omega

/-! ## The two decoders side by side -/

/-- The row found for `op` and what the dispatch answers agree: the same variant, and the variant encodes to `op` exactly
when `op` has none of the row's discarded bits set; or neither has anything. -/
def RowAgrees (t : ClassFBytes) (op : Word) : Option OpcodeRow → Except DecodeError Instr → Prop
  | some r, .ok i => r.mnemonic = i.mnemonic ∧ (encodeWith t i = op ↔ op &&& r.ignored = 0)
  | none, .error _ => True
  | some _, .error _ => False
  | none, .ok _ => False

/-- R76: the two exact rows stand before the Nop row, as the two exact words do in the dispatch. -/
theorem rowAgrees_class0 (t : ClassFBytes) {op : Word} (hc : fieldClass op = 0x0) :
    RowAgrees t op (rowOf (opcodeRows t) op) (.ok (decodeClass0 op)) := by
  have hzero := zero_eq_iff_of_class0 hc
  simp only [decodeClass0]
  split_ifs <;> simp_all [opcodeRows, RowAgrees, Instr.mnemonic, encodeWith]

/-- R81: nine low nibbles have a row and a variant, the other seven neither. -/
theorem rowAgrees_class8 (t : ClassFBytes) {op : Word} (hc : fieldClass op = 0x8) :
    RowAgrees t op (rowOf (opcodeRows t) op) (decodeClass8 op) := by
  have hpack (n : BitVec 4) : (fieldN op).val = n.toNat → packXYN 0x8#4 (fieldX op) (fieldY op) n = op :=
    packXYN_fields hc
  have hlt := (fieldN op).isLt
  rw [decodeClass8]
  generalize hn : (fieldN op).val = n at hlt hpack
  interval_cases n <;> simp [opcodeRows, hc, hn, RowAgrees, Instr.mnemonic, encodeWith, hpack]

/-- R85. -/
theorem rowAgrees_classE (t : ClassFBytes) {op : Word} (hc : fieldClass op = 0xE) :
    RowAgrees t op (rowOf (opcodeRows t) op) (decodeClassE op) := by
  have hpack : packXKK 0xE#4 (fieldX op) (fieldKK op) = op := packXKK_fields hc
  simp only [decodeClassE]
  split_ifs <;> simp_all [opcodeRows, RowAgrees, Instr.mnemonic, encodeWith]

/-- R86: the rows of class F and the dispatch try the bytes of the table in one order. -/
theorem rowAgrees_classF (t : ClassFBytes) {op : Word} (hc : fieldClass op = 0xF) :
    RowAgrees t op (rowOf (opcodeRows t) op) (decodeClassF t op) := by
  have hpack : packXKK 0xF#4 (fieldX op) (fieldKK op) = op := packXKK_fields hc
  simp only [decodeClassF]
  split_ifs <;> simp_all [opcodeRows, RowAgrees, Instr.mnemonic, encodeWith]

/-- The two decoders agree on every opcode, for every table: each class has its rows, and they test what its dispatch
tests (R92). -/
theorem rowAgrees_rowOf (t : ClassFBytes) (op : Word) :
    RowAgrees t op (rowOf (opcodeRows t) op) (decodeWordWith t op) := by
  have hlt : fieldClass op < 16 := by rw [fieldClass_eq]; have := op.isLt; omega
  rw [decodeWordWith]
  generalize hc : fieldClass op = c at hlt
  obtain rfl | rfl | rfl | rfl | ⟨hlo, hhi⟩ | ⟨hlo, hhi⟩ :
      c = 0x0 ∨ c = 0x8 ∨ c = 0xE ∨ c = 0xF ∨ (0x1 ≤ c ∧ c ≤ 0x7) ∨ (0x9 ≤ c ∧ c ≤ 0xD) := by omega
  · exact rowAgrees_class0 t hc
  · exact rowAgrees_class8 t hc
  · exact rowAgrees_classE t hc
  · exact rowAgrees_classF t hc
  all_goals
    interval_cases c <;>
      simp [opcodeRows, RowAgrees, Instr.mnemonic, encodeWith, packXYN_fields, packNNN_fields, packXKK_fields,
        packXYN_zero_eq_iff, hc]

/-- Settles O7: `RowAgrees` compares the names. -/
theorem maskMatchTableAgrees : Obligations.MaskMatchTableAgrees := by
  intro t _ op
  have hagrees := rowAgrees_rowOf t op
  cases hrow : rowOf (opcodeRows t) op <;> cases hdecode : decodeWordWith t op <;> rw [hrow, hdecode] at hagrees
  case none.error => rfl
  case some.ok => exact congrArg some hagrees.1
  case none.ok | some.error => exact hagrees.elim

/-- Settles O6: an opcode that decodes selects a row, and `RowAgrees` says when its instruction encodes to it. -/
theorem canonicalOpcodesReencode : Obligations.CanonicalOpcodesReencode := by
  intro t _ op i hdecode
  have hagrees := rowAgrees_rowOf t op
  rw [hdecode] at hagrees
  rw [canonicalIn]
  cases hrow : rowOf (opcodeRows t) op with
  | none => rw [hrow] at hagrees; exact hagrees.elim
  | some r => rw [hrow] at hagrees; exact hagrees.2.trans beq_iff_eq.symm

/-! ## Sample words -/

/-- Settles O1: the decoder is run on twelve words. -/
theorem sampleOpcodesDecode : Obligations.SampleOpcodesDecode := by
  unfold Obligations.SampleOpcodesDecode
  decide

end Sys2Proof
end

section
/-! Which pieces of state an effect writes (10_state.md R21, R23, R35), which it reads (R35, R27, R31) and which errors it
raises (60_exceptions.md R205). Each is one case analysis, over `completesAs` for what an effect does and over
`raisedBy` for what it fails with. -/

namespace Sys2Proof.Machine

/-! ## Written by -/

/-- A write to one register changes no other. -/
theorem eq_of_readV_writeV_ne {s : State} {x r : Reg} {b : Byte} (h : readV (writeV s x b) r ≠ readV s r) : x = r := by
  by_contra hne
  rw [readV_writeV, if_neg (Ne.symm hne)] at h
  exact h rfl

/-- Settles O53: among the cases of `completesAs` the writes to registers name their destinations. -/
theorem onlyTheseWriteTheFlagRegister : Obligations.OnlyTheseWriteTheFlagRegister := by
  intro i s t h hne
  have hdone := exec_next_inv h
  cases i <;> simp only [completesAs] at hdone
  case addValue | addRegister | subtractVxVy | subtractVyVx | shiftRight | shiftLeft | draw => trivial
  case loadValue | random | readDelayTimer | copy | or | and | xor =>
    subst hdone
    exact eq_of_readV_writeV_ne hne
  case waitForKey =>
    obtain ⟨k, -, rfl⟩ := hdone
    exact eq_of_readV_writeV_ne hne
  case loadRegisters x =>
    obtain ⟨-, rfl⟩ := hdone
    have hx : (15 : Reg).val ≤ x.val := by
      by_contra hlow
      rw [readV_loadRegistersUpTo, if_neg hlow] at hne
      exact hne rfl
    exact Fin.ext (Nat.le_antisymm (Nat.le_of_lt_succ x.isLt) hx)
  case ret | skipIfKeyPressed | skipIfKeyNotPressed =>
    obtain ⟨k, -, rfl⟩ := hdone
    exact hne rfl
  case call | jumpRelative | storeBcd | storeRegisters =>
    obtain ⟨_, rfl⟩ := hdone
    exact hne rfl
  all_goals
    subst hdone
    exact hne rfl

theorem skipNextIf_pc_cases (c : Bool) (s : State) : (skipNextIf c s).pc = s.pc ∨ (skipNextIf c s).pc = s.pc + 2 := by
  cases c
  · exact .inl rfl
  · exact .inr rfl

/-- Settles O54: the cases of `completesAs` read at `PC`. -/
theorem howEachInstructionMovesPc : Obligations.HowEachInstructionMovesPc := by
  intro i s t h
  have hdone := exec_next_inv h
  cases i <;> simp only [completesAs] at hdone
  case ret =>
    obtain ⟨k, hsp, rfl⟩ := hdone
    exact ⟨k, hsp, rfl⟩
  case call nnn =>
    obtain ⟨-, rfl⟩ := hdone
    exact zextAddr_toNat nnn
  case jumpRelative nnn =>
    obtain ⟨hlt, rfl⟩ := hdone
    exact Nat.mod_eq_of_lt (by omega)
  case skipIfKeyPressed | skipIfKeyNotPressed =>
    obtain ⟨k, -, rfl⟩ := hdone
    exact skipNextIf_pc_cases _ s
  case waitForKey =>
    obtain ⟨k, -, rfl⟩ := hdone
    rfl
  case draw | storeBcd | storeRegisters | loadRegisters =>
    obtain ⟨-, rfl⟩ := hdone
    simp only [writeV_pc, storeAtIndex_pc, loadRegistersUpTo_pc]
  all_goals subst hdone
  case jump nnn => exact zextAddr_toNat nnn
  case skipIfEqualValue | skipIfNotEqualValue | skipIfEqualRegister | skipIfNotEqualRegister =>
    exact skipNextIf_pc_cases _ s
  all_goals rfl

/-- Settles O55: the cases of `completesAs` read at every other piece of state. -/
theorem whichInstructionsWriteWhat : Obligations.WhichInstructionsWriteWhat := by
  intro i s t h
  have hdone := exec_next_inv h
  cases i <;> simp only [completesAs] at hdone
  case ret | skipIfKeyPressed | skipIfKeyNotPressed | waitForKey =>
    obtain ⟨k, -, rfl⟩ := hdone
    simp
  case call | jumpRelative | draw | storeBcd | storeRegisters | loadRegisters =>
    obtain ⟨-, rfl⟩ := hdone
    simp
  all_goals
    subst hdone
    simp

/-! ## Read by -/

/-- Three pieces of state rewritten at once: `KEYS`, `ST` and `CYCLE`. -/
def rewriteInputs (k : Word → Word) (b : Byte → Byte) (c : Nat → Nat) (s : State) : State :=
  { s with keys := k s.keys, st := b s.st, cycle := c s.cycle }

/-- The instructions that read `KEYS`. -/
def ReadsKeys (i : Instr) : Prop := ∃ x, i = .skipIfKeyPressed x ∨ i = .skipIfKeyNotPressed x ∨ i = .waitForKey x

/-- The errors do not depend on `ST` and `CYCLE`, and on `KEYS` for WaitForKey alone. -/
theorem raisedBy_rewriteInputs {k : Word → Word} {i : Instr} (hk : ReadsKeys i → k = id) (b : Byte → Byte)
    (c : Nat → Nat) (s : State) (e : Fault) : raisedBy i (rewriteInputs k b c s) e ↔ raisedBy i s e := by
  cases i
  case waitForKey x =>
    obtain rfl := hk ⟨x, .inr (.inr rfl)⟩
    rfl
  all_goals rfl

/-- The lowest held key depends on `KEYS` alone. -/
theorem exec_waitForKey_rewriteInputs (b : Byte → Byte) (c : Nat → Nat) (x : Reg) {s t : State}
    (h : exec (.waitForKey x) s = .next t) :
    exec (.waitForKey x) (rewriteInputs id b c s) = .next (rewriteInputs id b c t) := by
  have hsame : lowestHeldKey (rewriteInputs id b c s) = lowestHeldKey s := rfl
  simp only [exec, execWaitForKey, hsame] at h ⊢
  cases hkey : lowestHeldKey s with
  | none => rw [hkey] at h; cases h
  | some j => rw [hkey] at h; cases h; rfl

/-- Rewriting `KEYS`, `ST` and `CYCLE` before an effect is rewriting them after it, if `KEYS` is left alone for the
instructions that read it and `ST` for SetSoundTimer, which overwrites it. -/
theorem exec_rewriteInputs {k : Word → Word} {b : Byte → Byte} {i : Instr} (hk : ReadsKeys i → k = id)
    (hb : (∃ x, i = .setSoundTimer x) → b = id) (c : Nat → Nat) (s : State) :
    exec i (rewriteInputs k b c s) = thenUpdate (exec i s) (rewriteInputs k b c) := by
  cases hx : exec i s with
  | refused q => exact absurd hx (exec_not_refused i s q)
  | fault e => exact (exec_eq_fault _ _ _).2 ((raisedBy_rewriteInputs hk b c s e).2 ((exec_eq_fault _ _ _).1 hx))
  | next t =>
    have hdone := exec_next_inv hx
    cases i <;> simp only [completesAs] at hdone
    case ret =>
      obtain ⟨j, hj, rfl⟩ := hdone
      exact exec_ret_eq (s := rewriteInputs k b c s) j hj
    case call nnn =>
      obtain ⟨hj, rfl⟩ := hdone
      exact exec_call_eq nnn (s := rewriteInputs k b c s) hj
    case jumpRelative nnn =>
      obtain ⟨hj, rfl⟩ := hdone
      exact exec_jumpRelative_eq hj
    case draw x y n =>
      obtain ⟨hj, rfl⟩ := hdone
      exact exec_draw_eq x y hj
    case storeBcd x =>
      obtain ⟨hj, rfl⟩ := hdone
      exact exec_storeBcd_eq x hj
    case storeRegisters x =>
      obtain ⟨hj, rfl⟩ := hdone
      exact exec_storeRegisters_eq hj
    case loadRegisters x =>
      obtain ⟨hj, rfl⟩ := hdone
      exact exec_loadRegisters_eq hj
    case skipIfKeyPressed x =>
      obtain ⟨j, hj, rfl⟩ := hdone
      obtain rfl := hk ⟨x, .inl rfl⟩
      exact (exec_keySkips_eq (s := rewriteInputs id b c s) j hj).1
    case skipIfKeyNotPressed x =>
      obtain ⟨j, hj, rfl⟩ := hdone
      obtain rfl := hk ⟨x, .inr (.inl rfl)⟩
      exact (exec_keySkips_eq (s := rewriteInputs id b c s) j hj).2
    case waitForKey x =>
      obtain rfl := hk ⟨x, .inr (.inr rfl)⟩
      exact exec_waitForKey_rewriteInputs b c x hx
    case setSoundTimer x =>
      obtain rfl := hb ⟨x, rfl⟩
      subst hdone
      rfl
    case selectCharacter x =>
      subst hdone
      exact execSelectCharacter_eq x _
    all_goals
      subst hdone
      rfl

/-- Settles O56: each clause rewrites one of the three pieces of state and leaves the other two alone. -/
theorem keysSoundAndCycleAreNotRead : Obligations.KeysSoundAndCycleAreNotRead := by
  intro i s
  refine ⟨fun hi k => ?_, fun hi b => ?_, fun x b => rfl, fun c => ?_⟩
  · have hk : ¬ ReadsKeys i := by
      rintro ⟨x, h | h | h⟩
      exacts [(hi x).1 h, (hi x).2.1 h, (hi x).2.2 h]
    exact exec_rewriteInputs (k := fun _ => k) (b := id) (fun h => absurd h hk) (fun _ => rfl) id s
  · exact exec_rewriteInputs (k := id) (b := fun _ => b) (fun _ => rfl) (fun ⟨x, h⟩ => absurd h (hi x)) id s
  · exact exec_rewriteInputs (k := id) (b := id) (fun _ => rfl) (fun _ => rfl) (fun _ => c) s

/-! ## Errors -/

/-- R205: which effects raise MemoryAccessError, and when. -/
theorem raisedBy_memoryAccessError (i : Instr) (s : State) :
    raisedBy i s .memoryAccessError ↔
      (∃ x y n, i = .draw x y n ∧ 4096 < s.i.toNat + n.val) ∨ (∃ x, i = .storeBcd x ∧ 4096 < s.i.toNat + 3) ∨
      (∃ x, (i = .storeRegisters x ∨ i = .loadRegisters x) ∧ 4096 < s.i.toNat + (x.val + 1)) ∨
      (∃ nnn, i = .jumpRelative nnn ∧ 4096 ≤ nnn.toNat + (readV s 0).toNat) := by
  cases i <;> simp [raisedBy]

/-- R202: no effect raises InvalidInstruction. -/
theorem not_raisedBy_invalidInstruction (i : Instr) (s : State) (w : Word) : ¬ raisedBy i s (.invalidInstruction w) := by
  cases i <;> simp [raisedBy]

/-- No step is refused, since no effect is. -/
theorem step_not_refused (s : State) (q : Refusal) : step s ≠ .refused q := by
  rw [step]
  obtain ⟨-, hs⟩ | ⟨op, -, -, hs⟩ | ⟨op, i, -, -, -, hs⟩ | ⟨op, i, -, -, -, hs⟩ := stepWith_cases Config.timerDivider s
    <;> rw [hs]
  case inr.inr.inr => exact fun h => exec_not_refused i _ q (thenUpdate_eq_refused.1 h)
  all_goals simp

/-- Settles O57: `raisedBy` lists the errors of every effect, and a step has only those, its own two and no refusal. -/
theorem memoryErrorsExactlyAndNoRefusal : Obligations.MemoryErrorsExactlyAndNoRefusal := by
  refine ⟨fun i s => ?_, fun i s w => ⟨fun h => ?_, fun h => ?_, exec_ne_programCounterOutOfBounds i s w⟩,
    exec_not_refused, fun s q => ⟨step_ne_romTooLarge s, step_not_refused s q⟩⟩
  · rw [exec_eq_fault, raisedBy_memoryAccessError]
  · exact not_raisedBy_romTooLarge i s ((exec_eq_fault _ _ _).1 h)
  · exact not_raisedBy_invalidInstruction i s w ((exec_eq_fault _ _ _).1 h)

end Sys2Proof.Machine
end

section
/-! The step as a whole (40_step_cycle.md R104 to R110): the decoded instruction, the blocking test, the skips, the timer
stage, and the state a failed step leaves. -/

namespace Sys2Proof.Machine

/-! ## The decoded instruction -/

/-- Decoding the two bytes at `PC` is decoding the opcode fetched (R102, 30_encoding.md R70). -/
theorem decodeWord_of_decodeBytes {hi lo : Byte} {i : Instr} {rest : List Byte}
    (h : decodeBytes [hi, lo] = .ok (i, rest)) : decodeWord (opcodeOf hi lo) = .ok i := by
  simp only [decodeBytes] at h
  cases hd : decodeWord (opcodeOf hi lo) <;> simp_all

/-- The blocking test passes where WaitForKey with no key held is shut out (R104). -/
theorem blocks_eq_false {i : Instr} {s : State} (h : ¬ ((∃ x, i = .waitForKey x) ∧ s.keys = 0)) : blocks i s = false := by
  rwa [← Bool.not_eq_true, blocks_iff]

/-- Settles O8: past the blocking test the step is the effect followed by the timer stage on a next state. -/
theorem stepRunsDecodedInstruction : Obligations.StepRunsDecodedInstruction := by
  intro s i hpc hbytes hpass
  have hstep : step s = thenUpdate (exec i (advancePc s)) (updateTimersWith Config.timerDivider) :=
    stepWith_eq _ (fetches_self hpc) (decodeWord_of_decodeBytes hbytes) (blocks_eq_false hpass)
  rw [hstep]
  refine ⟨fun t ht => ?_, fun e he => ?_, fun q hq => ?_⟩
  · exact thenUpdate_eq_next.2 ⟨t, ht, rfl⟩
  · exact thenUpdate_eq_fault.2 he
  · exact thenUpdate_eq_refused.2 hq

/-! ## The blocked step -/

/-- A state that its own step answers stays for any number of steps. -/
theorem run_of_step_self {s : State} (h : step s = .next s) (k : Nat) : Host.Core.run Sys2Proof.core k s = .next s := by
  induction k with
  | zero => rfl
  | succ k ih => rw [run_succ_of_next k h, ih]

/-- Settles O11: the step is stopped by the blocking test before anything is changed, so the next step finds the same
state. -/
theorem waitForKeyBlocksAndFreezesTime : Obligations.WaitForKeyBlocksAndFreezesTime := by
  intro s op x hf hd hkeys
  have hblocks : blocks (.waitForKey x) s = true := (blocks_iff _ s).2 ⟨⟨x, rfl⟩, hkeys⟩
  have hstep : step s = .next s := stepWith_blocked _ hf hd hblocks
  obtain ⟨hpc, hop⟩ := (fetches_iff s op).1 hf
  refine ⟨?_, run_of_step_self hstep⟩
  simp only [runCommand, runCommandWith, stepCommand, hstep, stepBlocks, hpc, hop, hd, hblocks, Bool.not_false,
    Bool.and_true, if_true]

/-! ## The skips -/

/-- A fetched instruction that does not block moves `PC` by 2 and by what its effect adds, and nothing wraps (R23). -/
theorem stepMovesPcBy_of_exec {s : State} {op : Word} {i : Instr} (hf : Fetches s op) (hd : decodeWord op = .ok i)
    (hb : blocks i s = false) {c : Bool} (he : exec i (advancePc s) = .next (skipNextIf c (advancePc s))) :
    StepMovesPcBy (if c = true then 4 else 2) s := by
  refine ⟨_, step_of_exec_next hf hd hb he, ?_⟩
  have := hf.1
  rw [updateTimersWith_pc, skipNextIf_pc, advancePc_pc]
  cases c
  · rw [if_neg Bool.false_ne_true, if_neg Bool.false_ne_true]
    bv_omega
  · rw [if_pos rfl, if_pos rfl]
    bv_omega

/-- Bit `k` of `KEYS` as the statements read it. -/
theorem keyHeld_eq_testBit (s : State) (k : Fin 16) : keyHeld s k = s.keys.toNat.testBit k.val :=
  (BitVec.testBit_toNat s.keys).symm

/-- Settles O13: the effect of each skip is `skipNextIf` of its comparison, which reads nothing at or after the next
instruction. -/
theorem skipNeverDecodesTheSkipped : Obligations.SkipNeverDecodesTheSkipped := by
  intro s op hf
  refine ⟨fun x kk hd => ?_, fun x kk hd => ?_, fun x y hd => ?_, fun x y hd => ?_, fun x hd hx => ?_,
    fun x hd hx => ?_⟩
  · have := stepMovesPcBy_of_exec hf hd rfl (c := readV s x == kk) rfl
    simpa using this
  · have := stepMovesPcBy_of_exec hf hd rfl (c := readV s x != kk) rfl
    simpa using this
  · have := stepMovesPcBy_of_exec hf hd rfl (c := readV s x == readV s y) rfl
    simpa using this
  · have := stepMovesPcBy_of_exec hf hd rfl (c := readV s x != readV s y) rfl
    simpa using this
  · obtain ⟨hexec, -⟩ := exec_keySkips_eq (x := x) (s := advancePc s) ⟨(readV s x).toNat, by omega⟩ rfl
    have := stepMovesPcBy_of_exec hf hd rfl hexec
    rwa [keyHeld_eq_testBit] at this
  · obtain ⟨-, hexec⟩ := exec_keySkips_eq (x := x) (s := advancePc s) ⟨(readV s x).toNat, by omega⟩ rfl
    have := stepMovesPcBy_of_exec hf hd rfl hexec
    simpa only [keyHeld_eq_testBit, advancePc_keys, Bool.not_eq_true', ← Bool.not_eq_true, ite_not] using this

/-! ## The timer stage -/

theorem dividerExpires_iff (n : Nat) (s : State) : dividerExpires n s = true ↔ n ≤ s.cycle + 1 := decide_eq_true_iff

/-- R107: below the divider the stage only counts. -/
theorem updateTimersWith_of_lt {n : Nat} {s : State} (h : s.cycle + 1 < n) :
    updateTimersWith n s = { s with cycle := s.cycle + 1 } := by
  have hexp : dividerExpires n s = false := by rw [← Bool.not_eq_true, dividerExpires_iff]; omega
  simp only [updateTimersWith, hexp, Bool.false_eq_true, if_false]

/-- R107: at the divider the stage decrements both timers and starts the count again. -/
theorem updateTimersWith_of_ge {n : Nat} {s : State} (h : n ≤ s.cycle + 1) :
    updateTimersWith n s = { s with dt := countDown s.dt, st := countDown s.st, cycle := 0 } := by
  simp only [updateTimersWith, (dividerExpires_iff n s).2 h, if_true]

/-- The timer stage leaves `CYCLE` below the divider (R107). -/
theorem updateTimersWith_cycle_lt {n : Nat} (hn : 1 ≤ n) (s : State) : (updateTimersWith n s).cycle < n := by
  by_cases h : s.cycle + 1 < n
  · rwa [updateTimersWith_of_lt h]
  · rw [updateTimersWith_of_ge (Nat.not_lt.1 h)]
    exact hn

/-- From `CYCLE = 0` the stages before the `n`-th only count. -/
theorem iterate_updateTimersWith_of_lt {n k : Nat} {s : State} (hs : s.cycle = 0) (hk : k < n) :
    (updateTimersWith n)^[k] s = { s with cycle := k } := by
  induction k with
  | zero => rw [Function.iterate_zero, id_eq, ← hs]
  | succ k ih => rw [Function.iterate_succ_apply', ih (by omega), updateTimersWith_of_lt hk]

/-- Settles O12: the two sides of the compare, and the iteration of the side that counts up to the `n`-th stage. -/
theorem timerStage : Obligations.TimerStage := by
  intro n hn
  refine ⟨fun s h => updateTimersWith_of_lt h, fun s h => ?_,
    fun s => Nat.le_sub_one_of_lt (updateTimersWith_cycle_lt hn s), fun s op i t hf hd hpass he => ?_, fun s hs => ?_⟩
  · rw [updateTimersWith_of_ge h]
    exact ⟨countDown_toNat s.dt, countDown_toNat s.st, rfl⟩
  · rw [stepWith_eq n hf hd (blocks_eq_false hpass)]
    exact thenUpdate_eq_next.2 ⟨t, he, rfl⟩
  · have hlast : (updateTimersWith n)^[n] s = { s with dt := countDown s.dt, st := countDown s.st, cycle := 0 } := by
      obtain ⟨m, rfl⟩ : ∃ m, n = m + 1 := ⟨n - 1, by omega⟩
      rw [Function.iterate_succ_apply', iterate_updateTimersWith_of_lt hs (Nat.lt_succ_self m)]
      exact updateTimersWith_of_ge (Nat.le_refl _)
    refine ⟨fun k hk => ?_, ?_⟩
    · rw [iterate_updateTimersWith_of_lt hs hk]
      exact ⟨rfl, rfl, rfl⟩
    · rw [hlast]
      exact ⟨countDown_toNat s.dt, countDown_toNat s.st, rfl⟩

/-! ## The failed step -/

/-- When the `step` command answers an error, the step failed with it and `stateLeftBy` is the state left (R109). -/
theorem runCommand_step_eq_error {s u : State} {e : Fault} (h : runCommand .step s = (u, .error e)) :
    step s = .fault e ∧ u = stateLeftBy e s := by
  have h : stepCommand s = (u, .error e) := h
  rw [stepCommand] at h
  cases hs : step s with
  | next t =>
    rw [hs] at h
    cases hb : stepBlocks s <;> simp [hb] at h
  | fault e' => rw [hs] at h; cases h; exact ⟨rfl, rfl⟩
  | refused q => exact absurd hs (step_not_refused s q)

/-- The errors of stage 5 leave the state with the advanced `PC` (R106). -/
theorem stateLeftBy_of_raisedBy {i : Instr} {s : State} {e : Fault} (h : raisedBy i s e) (u : State) :
    stateLeftBy e u = advancePc u := by
  cases e
  case romTooLarge => exact absurd h (not_raisedBy_romTooLarge i s)
  case invalidInstruction w => exact absurd h (not_raisedBy_invalidInstruction i s w)
  case programCounterOutOfBounds p =>
    exact absurd ((exec_eq_fault _ _ _).2 h) (exec_ne_programCounterOutOfBounds i s p)
  all_goals rfl

/-- Settles O14: the errors of stages 1 and 2 leave the state alone, and every other one is an effect's, run on the state
with the advanced `PC`. -/
theorem failedStepChangesOnlyPc : Obligations.FailedStepChangesOnlyPc := by
  intro s u e h
  obtain ⟨hfault, rfl⟩ := runCommand_step_eq_error h
  rw [step] at hfault
  obtain ⟨hout, hs⟩ | ⟨op, hf, hd, hs⟩ | ⟨op, i, -, -, -, hs⟩ | ⟨op, i, hf, hd, -, hs⟩ :=
    stepWith_cases Config.timerDivider s <;> rw [hs] at hfault
  · cases hfault
    exact .inl ⟨rfl, .inl hout⟩
  · cases hfault
    exact .inl ⟨rfl, .inr ⟨op, _, hf, hd⟩⟩
  · cases hfault
  · have he := thenUpdate_eq_fault.1 hfault
    have hleft := stateLeftBy_of_raisedBy ((exec_eq_fault _ _ _).1 he) s
    exact .inr ⟨hleft, op, i, hf, hd, hleft ▸ he⟩

/-! ## The safe step -/

/-- Settles O58: a step that decodes fails exactly when `raisedBy` says so of its effect, WaitForKey with no key held
aside, which blocks. -/
theorem stepIsSafeExactlyWhen : Obligations.StepIsSafeExactlyWhen := by
  intro s op hf
  cases hd : decodeWord op with
  | error d =>
    have hfault : step s = .fault (.invalidInstruction op) := stepWith_of_decodeWord_error _ hf hd
    simp [SafeStep, hfault]
  | ok i =>
    cases hb : blocks i s with
    | true =>
      have hblocked : step s = .next s := stepWith_blocked _ hf hd hb
      obtain ⟨⟨x, rfl⟩, -⟩ := (blocks_iff i s).1 hb
      exact iff_of_true ⟨s, hblocked⟩ ⟨_, rfl, trivial⟩
    | false =>
      have hsafe : SafeStep s ↔ ∀ e, ¬ raisedBy i (advancePc s) e := by
        rw [← exec_completes_iff, SafeStep, step, stepWith_eq _ hf hd hb]
        simp [thenUpdate_eq_next]
      rw [hsafe]
      cases i
      case call nnn => simpa [raisedBy] using Nat.le_of_lt_succ s.sp.isLt
      case waitForKey x => simpa [raisedBy, blocks] using hb
      all_goals simp [raisedBy]

end Sys2Proof.Machine
end

section
/-! The machine invariant `Inv` (10_state.md R23, R26, 40_step_cycle.md R107): every effect, every step, every run and every
command of the host keeps it. -/

namespace Sys2Proof.Machine

/-! ## What an effect does to each part of the invariant -/

/-- Memory is written inside its 4096 bytes alone, so its canonical form lasts (20_memory.md R52, R53). -/
theorem exec_keeps_wf {i : Instr} {s t : State} (h : exec i s = .next t) (hw : s.mem.wf = true) : t.mem.wf = true := by
  obtain ⟨-, -, -, -, hmem, -⟩ := whichInstructionsWriteWhat i s t h
  by_cases hsame : t.mem = s.mem
  · rwa [hsame]
  · have hdone := exec_next_inv h
    obtain ⟨x, rfl | rfl⟩ := hmem hsame
    · obtain ⟨hspan, rfl⟩ := hdone
      exact Memory.wf_writeBytes hspan hw
    · obtain ⟨hspan, rfl⟩ := hdone
      exact Memory.wf_writeBytes (by rwa [length_registersUpTo]) hw

/-- Every pushed return address is at most 4096. -/
def StackBounded (s : State) : Prop :=
  ∀ k : Fin Config.stackDepth, k.val < s.sp.val → (s.stack[k.val]).toNat ≤ 4096

/-- Return uncovers no slot and Call pushes the `PC` it finds (41_flow.md R121, R123). -/
theorem exec_keeps_stackBounded {i : Instr} {s t : State} (h : exec i s = .next t) (hs : StackBounded s)
    (hpc : s.pc.toNat ≤ 4096) : StackBounded t := by
  obtain ⟨-, -, -, hstack, -⟩ := whichInstructionsWriteWhat i s t h
  by_cases hchanged : t.stack ≠ s.stack ∨ t.sp ≠ s.sp
  · have hdone := exec_next_inv h
    obtain rfl | ⟨nnn, rfl⟩ := hstack hchanged
    · obtain ⟨j, hj, rfl⟩ := hdone
      exact fun k hk => hs k (hj ▸ Nat.lt_succ_of_lt hk)
    · obtain ⟨hlt, rfl⟩ := hdone
      intro k hk
      by_cases hnew : s.sp.val = k.val
      · simpa [hnew] using hpc
      · have hold : k.val < s.sp.val := by
          have : k.val < s.sp.val + 1 := hk
          omega
        simpa [hnew] using hs k hold
  · obtain ⟨h1, h2⟩ := not_or.1 hchanged
    rw [not_not] at h1 h2
    rw [StackBounded, h1, h2]
    exact hs

/-- From an advanced `PC` of at most 4096 an effect reaches at most 4098: a skip adds 2, every other target is a 12-bit
address, a sum below 4096 or a pushed address (R23). -/
theorem exec_pc_le {i : Instr} {s t : State} (h : exec i s = .next t) (hs : StackBounded s) (hpc : s.pc.toNat ≤ 4096) :
    t.pc.toNat ≤ 4098 := by
  have hmove := howEachInstructionMovesPc i s t h
  have hskip : (s.pc + 2).toNat ≤ 4098 := by bv_omega
  cases i <;> simp only at hmove
  case jump nnn | call nnn => have := nnn.isLt; omega
  case ret =>
    obtain ⟨k, hk, hslot⟩ := hmove
    have := hs k (by omega)
    rw [hslot]
    omega
  case jumpRelative nnn =>
    obtain ⟨hlt, -⟩ := exec_next_inv h
    omega
  case skipIfEqualValue | skipIfNotEqualValue | skipIfEqualRegister | skipIfNotEqualRegister | skipIfKeyPressed |
      skipIfKeyNotPressed =>
    obtain hpc' | hpc' := hmove <;> rw [hpc'] <;> omega
  all_goals rw [hmove]; omega

/-- The advance from an address that a step fetches from (R101, R105). -/
theorem advancePc_pc_le {s : State} {op : Word} (hf : Fetches s op) : (advancePc s).pc.toNat ≤ 4096 := by
  have := hf.1
  rw [advancePc_pc]
  bv_omega

/-! ## The invariant along the machine -/

/-- Settles O15: a step fetches from at most 4094, so the effect starts from an advanced `PC` of at most 4096, keeps the
three parts of the invariant it can touch, and the timer stage brings `CYCLE` below the divider. -/
theorem stepKeepsMachineInvariant : Obligations.StepKeepsMachineInvariant := by
  intro s t ⟨hmem, hpc, hstack, hcycle⟩ h
  rw [step] at h
  obtain ⟨-, hs⟩ | ⟨op, -, -, hs⟩ | ⟨op, i, -, -, -, hs⟩ | ⟨op, i, hf, -, -, hs⟩ := stepWith_cases Config.timerDivider s
    <;> rw [hs] at h
  · cases h
  · cases h
  · cases h
    exact ⟨hmem, hpc, hstack, hcycle⟩
  · obtain ⟨u, hu, rfl⟩ := thenUpdate_eq_next.1 h
    have hadvanced : (advancePc s).pc.toNat ≤ 4096 := advancePc_pc_le hf
    have hbounded : StackBounded (advancePc s) := hstack
    have hmem' : u.mem.wf = true := exec_keeps_wf hu hmem
    have hpc' : u.pc.toNat ≤ 4098 := exec_pc_le hu hbounded hadvanced
    have hstack' : StackBounded u := exec_keeps_stackBounded hu hbounded hadvanced
    exact ⟨hmem', hpc', hstack', updateTimersWith_cycle_lt timerDivider_pos u⟩

/-- Settles O59, by induction on the number of steps. -/
theorem runsKeepMachineInvariant : Obligations.RunsKeepMachineInvariant := by
  intro k
  induction k with
  | zero => rintro s t hinv ⟨⟩; exact hinv
  | succ k ih =>
    intro s t hinv h
    cases hs : step s with
    | next u => exact ih u t (stepKeepsMachineInvariant s u hinv hs) (run_succ_of_next k hs ▸ h)
    | fault e => rw [run_succ_of_fault k hs] at h; cases h
    | refused q => exact absurd hs (step_not_refused s q)

/-- Settles O16: the reset memory is canonical under every font, and the stack is empty. -/
theorem resetSatisfiesMachineInvariant : Obligations.ResetSatisfiesMachineInvariant := by
  have hreset (f : FontTable) : Inv (State.resetWith f) :=
    ⟨wf_resetWith f, by rw [resetWith_pc]; decide, fun k hk => absurd hk (Nat.not_lt_zero k.val), timerDivider_pos⟩
  exact ⟨resetWith_fontTable ▸ hreset fontTable, hreset⟩

/-- The state that the `step` command leaves keeps the invariant, also when the step fails (40_step_cycle.md R109): the
advance of a failed effect starts from an address that was fetched from. -/
theorem inv_stepCommand {s : State} (hinv : Inv s) : Inv (runCommand .step s).1 := by
  have hcommand : runCommand .step s = stepCommand s := rfl
  cases hs : step s with
  | next t =>
    rw [hcommand, stepCommand, hs]
    exact stepKeepsMachineInvariant s t hinv hs
  | refused q => exact absurd hs (step_not_refused s q)
  | fault e =>
    have hrun := runCommand_step_of_fault hs
    rw [hrun]
    obtain ⟨hsame, -⟩ | ⟨hadvance, op, i, hf, -⟩ := failedStepChangesOnlyPc s _ e hrun
    · rwa [hsame]
    · rw [hadvance]
      obtain ⟨hmem, -, hstack, hcycle⟩ := hinv
      exact ⟨hmem, Nat.le_trans (advancePc_pc_le hf) (by decide), hstack, hcycle⟩

/-- A ROM that fits is written inside memory (70_reset_and_hazards.md R233). -/
theorem inv_load {s : State} (hinv : Inv s) {rom : List Byte} (h : rom.length ≤ 3584) :
    Inv { s with mem := s.mem.writeBytes 0x200 rom } := by
  obtain ⟨hmem, hpc, hstack, hcycle⟩ := hinv
  exact ⟨Memory.wf_writeBytes (by simp only [Config.memSize]; omega) hmem, hpc, hstack, hcycle⟩

/-- Settles O17: `reset` answers a reset state, `load` writes inside memory, the step is above, and the other four commands
touch no part of the invariant. -/
theorem commandsKeepMachineInvariant : Obligations.CommandsKeepMachineInvariant := by
  intro f c s hinv
  obtain ⟨-, hreset⟩ := resetSatisfiesMachineInvariant
  by_cases hc : c = .reset
  · subst hc
    obtain ⟨hmem, hpc, hstack, hcycle⟩ := hreset f
    exact ⟨hmem, hpc, hstack, hcycle⟩
  · rw [runCommandWith_eq f hc]
    cases c with
    | reset => exact absurd rfl hc
    | load rom =>
      by_cases hfits : rom.length ≤ 3584
      · rw [runCommand_load_of_fits hfits]
        exact inv_load hinv hfits
      · rwa [runCommand_load_of_tooLarge (Nat.not_le.1 hfits)]
    | step => exact inv_stepCommand hinv
    | setInputKeys mask =>
      obtain ⟨hmem, hpc, hstack, hcycle⟩ := hinv
      exact ⟨hmem, hpc, hstack, hcycle⟩
    | isSoundActive => exact hinv
    | currentState => exact hinv
    | peekInstruction a =>
      have hsame : (runCommand (.peekInstruction a) s).1 = s := by
        simp only [runCommand, runCommandWith]
        split <;> rfl
      rwa [hsame]

/-! ## How a run can end -/

/-- The errors of the statement RunsEndOnlyInTheseErrors with their payloads (60_exceptions.md R202 to R206). -/
def EndsRun : Fault → Prop
  | .invalidInstruction op => ∃ d, decodeWord op = .error d
  | .programCounterOutOfBounds p => 4095 ≤ p.toNat ∧ p.toNat ≤ 4098
  | .invalidInputKey b => 15 < b.toNat
  | .callStackDepthExceeded | .callStackEmpty | .memoryAccessError => True
  | .romTooLarge | .expectingInputKey => False

/-- An effect that passed the blocking test fails with one of these. -/
theorem endsRun_of_raisedBy {i : Instr} {s : State} {e : Fault} (h : raisedBy i s e) (hb : blocks i s = false) :
    EndsRun e := by
  cases e with
  | invalidInstruction w => exact absurd h (not_raisedBy_invalidInstruction i s w)
  | programCounterOutOfBounds p => exact absurd ((exec_eq_fault _ _ _).2 h) (exec_ne_programCounterOutOfBounds i s p)
  | romTooLarge => exact not_raisedBy_romTooLarge i s h
  | expectingInputKey =>
    rw [raisedBy_expectingInputKey, hb] at h
    cases h
  | invalidInputKey b =>
    obtain ⟨x, -, -, hlarge⟩ := (raisedBy_invalidInputKey i s b).1 h
    exact hlarge
  | callStackDepthExceeded | callStackEmpty | memoryAccessError => trivial

/-- A step from a state with the invariant fails with one of these. -/
theorem endsRun_of_step_fault {s : State} {e : Fault} (hinv : Inv s) (h : step s = .fault e) : EndsRun e := by
  rw [step] at h
  obtain ⟨hout, hs⟩ | ⟨op, -, hd, hs⟩ | ⟨op, i, -, -, -, hs⟩ | ⟨op, i, -, -, hb, hs⟩ := stepWith_cases Config.timerDivider s
    <;> rw [hs] at h
  · cases h
    exact ⟨by omega, hinv.pc⟩
  · cases h
    exact ⟨_, hd⟩
  · cases h
  · exact endsRun_of_raisedBy ((exec_eq_fault _ _ _).1 (thenUpdate_eq_fault.1 h)) (by rwa [blocks_advancePc])

/-- The invariant lasts up to the step that fails, by induction on the number of steps. -/
theorem endsRun_of_run_fault (k : Nat) {s : State} {e : Fault} (hinv : Inv s)
    (h : Host.Core.run Sys2Proof.core k s = .fault e) : EndsRun e := by
  induction k generalizing s with
  | zero => cases h
  | succ k ih =>
    cases hs : step s with
    | next u => exact ih (stepKeepsMachineInvariant s u hinv hs) (run_succ_of_next k hs ▸ h)
    | refused q => exact absurd hs (step_not_refused s q)
    | fault e' =>
      rw [run_succ_of_fault k hs] at h
      cases h
      exact endsRun_of_step_fault hinv hs

/-- Settles O60: `EndsRun` is the statement's list, kind by kind. -/
theorem runsEndOnlyInTheseErrors : Obligations.RunsEndOnlyInTheseErrors := by
  intro k s e hinv h
  have hends := endsRun_of_run_fault k hinv h
  cases e <;> exact hends

end Sys2Proof.Machine
end

section
/-! Memory (20_memory.md R52, R53, R63) and the instructions that move bytes between memory and registers
(44_index_memory.md R163 to R167); the canonical form as a normal form. -/

namespace Sys2Proof.Machine

/-! ## The canonical form is a normal form -/

/-- A canonical list has a cell only from its lower bound on, below 4096, and never with the reset contents. -/
theorem Memory.of_find_eq_some {lo a : Nat} {b : Byte} {cs : List Host.Cell} (hw : Memory.wfFrom lo cs = true)
    (h : Memory.find a cs = some b) : lo ≤ a ∧ a < 4096 ∧ b ≠ resetByte a := by
  induction cs generalizing lo with
  | nil => cases h
  | cons c cs ih =>
    simp only [Memory.wfFrom, Bool.and_eq_true, decide_eq_true_eq, bne_iff_ne] at hw
    obtain ⟨⟨⟨hlo, hhi⟩, hne⟩, htail⟩ := hw
    rw [Memory.find] at h
    split at h
    · next heq =>
      subst heq
      cases h
      exact ⟨hlo, hhi, hne⟩
    · obtain ⟨h1, h2⟩ := ih htail h
      exact ⟨by omega, h2⟩

/-- Below its lower bound a canonical list has no cell. -/
theorem Memory.find_eq_none_of_lt {lo a : Nat} {cs : List Host.Cell} (hw : Memory.wfFrom lo cs = true) (h : a < lo) :
    Memory.find a cs = none := by
  by_contra hsome
  obtain ⟨b, hb⟩ := Option.ne_none_iff_exists'.1 hsome
  exact absurd (Memory.of_find_eq_some hw hb).1 (Nat.not_le.2 h)

/-- Two rising lists with the same cell at every address are the same list. -/
theorem Memory.cells_eq_of_find_eq {lo lo' : Nat} {cs cs' : List Host.Cell} (hw : Memory.wfFrom lo cs = true)
    (hw' : Memory.wfFrom lo' cs' = true) (h : ∀ a, Memory.find a cs = Memory.find a cs') : cs = cs' := by
  induction cs generalizing lo lo' cs' with
  | nil =>
    cases cs' with
    | nil => rfl
    | cons c' cs' => simpa [Memory.find] using h c'.1
  | cons c cs ih =>
    cases cs' with
    | nil => simpa [Memory.find] using h c.1
    | cons c' cs' =>
      simp only [Memory.wfFrom, Bool.and_eq_true, decide_eq_true_eq] at hw hw'
      obtain ⟨-, htail⟩ := hw
      obtain ⟨-, htail'⟩ := hw'
      -- the head of each list is the only cell at its address, so neither list can begin before the other
      have hhead := h c.1
      have hhead' := h c'.1
      simp only [Memory.find, if_true] at hhead hhead'
      have haddr : c.1 = c'.1 := by
        rcases Nat.lt_trichotomy c.1 c'.1 with hlt | heq | hlt
        · rw [if_neg (by omega), Memory.find_eq_none_of_lt htail' (by omega)] at hhead
          cases hhead
        · exact heq
        · rw [if_neg (by omega), Memory.find_eq_none_of_lt htail (by omega)] at hhead'
          cases hhead'
      rw [if_pos haddr.symm, Option.some.injEq] at hhead
      have hcell : c = c' := Prod.ext haddr hhead
      subst hcell
      rw [ih htail htail' fun a => ?_]
      by_cases ha : a = c.1
      · subst ha
        rw [Memory.find_eq_none_of_lt htail (Nat.lt_succ_self _), Memory.find_eq_none_of_lt htail' (Nat.lt_succ_self _)]
      · simpa [Memory.find, Ne.symm ha] using h a

/-- In a canonical memory the bytes tell the cells apart, since no cell holds the reset contents. -/
theorem Memory.find_eq_of_read_eq {m m' : Memory} (hw : m.wf = true) (hw' : m'.wf = true) {a : Nat}
    (h : a < 4096 → m.read a = m'.read a) : Memory.find a m.cells = Memory.find a m'.cells := by
  simp only [Memory.read] at h
  cases hm : Memory.find a m.cells <;> cases hm' : Memory.find a m'.cells <;> simp only [hm, hm', Option.getD] at h
  case none.none => rfl
  case none.some b' =>
    obtain ⟨-, hlt, hne⟩ := Memory.of_find_eq_some hw' hm'
    exact absurd (h hlt).symm hne
  case some.none b =>
    obtain ⟨-, hlt, hne⟩ := Memory.of_find_eq_some hw hm
    exact absurd (h hlt) hne
  case some.some b b' =>
    obtain ⟨-, hlt, -⟩ := Memory.of_find_eq_some hw hm
    rw [h hlt]

/-- Settles O25: a write keeps the form, and the cells of a canonical memory are determined by its bytes. -/
theorem memoryFormIsCanonical : Obligations.MemoryFormIsCanonical := by
  refine ⟨fun m a b ha hw => Memory.wf_write b ha hw, fun m m' hw hw' h => ?_⟩
  have hcells : m.cells = m'.cells :=
    Memory.cells_eq_of_find_eq hw hw' fun a => Memory.find_eq_of_read_eq hw hw' (h a)
  exact congrArg Memory.mk hcells

/-! ## Spans -/

/-- Settles O24: the laws of span reads and writes, and `raisedBy` for the four instructions that check a span. -/
theorem memReadAndMemWrite : Obligations.MemReadAndMemWrite := by
  refine ⟨fun m a n _ => ⟨Memory.length_readBytes m a n, fun k hk => ?_⟩,
    fun m a bs _ => ⟨fun k hk => Memory.read_writeBytes_inside m a k bs hk,
      fun x hx => Memory.read_writeBytes_outside m a x bs hx⟩,
    fun s x y n => ⟨fun h => ?_, fun h => ⟨?_, ?_⟩, fun h => ?_⟩⟩
  · rw [List.getElem?_eq_getElem (by rwa [Memory.length_readBytes]), Memory.getElem_readBytes]
  all_goals exact (exec_eq_fault _ _ _).2 ⟨rfl, h⟩

/-- The frame of every instruction that writes memory from `I` on. -/
theorem keeps_storeAtIndex (s : State) (bs : List Byte) :
    KeepsRegistersBut [] s (storeAtIndex s bs) ∧ KeepsScreen s (storeAtIndex s bs) ∧ KeepsStack s (storeAtIndex s bs) ∧
      KeepsTimers s (storeAtIndex s bs) ∧ KeepsHidden s (storeAtIndex s bs) ∧ (storeAtIndex s bs).i = s.i ∧
      (storeAtIndex s bs).pc = s.pc :=
  ⟨fun _ _ => rfl, fun _ _ => rfl, ⟨rfl, fun _ => rfl⟩, ⟨rfl, rfl⟩, ⟨rfl, rfl, rfl⟩, rfl, rfl⟩

/-! ## StoreBcd -/

/-- R164: the three bytes are the decimal digits. -/
theorem bcdDigits_toNat (v : Byte) :
    (v / 100).toNat = v.toNat / 100 ∧ (v / 10 % 10).toNat = v.toNat / 10 % 10 ∧ (v % 10).toNat = v.toNat % 10 := by
  simp [BitVec.toNat_udiv, BitVec.toNat_umod]

/-- Settles O42: StoreBcd is a span write of three digits. -/
theorem storeBcdWritesThreeDigits : Obligations.StoreBcdWritesThreeDigits := by
  refine fun x s => ⟨fun h => ⟨_, exec_storeBcd_eq x h, ?_⟩, fun h => (exec_eq_fault _ _ _).2 ⟨rfl, h⟩⟩
  obtain ⟨h100, h10, h1⟩ := bcdDigits_toNat (readV s x)
  have hin (k : Nat) (hk : k < 3) : (storeAtIndex s (bcdDigits (readV s x))).mem.read (s.i.toNat + k) = _ :=
    Memory.read_writeBytes_inside s.mem s.i.toNat k (bcdDigits (readV s x)) hk
  refine ⟨(congrArg BitVec.toNat (hin 0 (by decide))).trans h100, (congrArg BitVec.toNat (hin 1 (by decide))).trans h10,
    (congrArg BitVec.toNat (hin 2 (by decide))).trans h1, fun a ha => ?_, keeps_storeAtIndex s _⟩
  exact Memory.read_writeBytes_outside s.mem s.i.toNat a _ ha

/-! ## StoreRegisters and LoadRegisters -/

/-- R166: register `k` stands at `I + k`. -/
theorem read_storeRegisters (s : State) {x k : Reg} (hk : k.val ≤ x.val) :
    (storeAtIndex s (registersUpTo s x)).mem.read (s.i.toNat + k.val) = readV s k := by
  have hlen : k.val < (registersUpTo s x).length := by rw [length_registersUpTo]; omega
  rw [storeAtIndex_mem, Memory.read_writeBytes_inside _ _ _ _ hlen, getElem_registersUpTo]

/-- Settles O43: StoreRegisters is a span write of the registers in order. -/
theorem storeRegistersWritesBlock : Obligations.StoreRegistersWritesBlock := by
  refine fun x s => ⟨fun h => ⟨_, exec_storeRegisters_eq h, fun k => read_storeRegisters s, fun a ha => ?_,
    keeps_storeAtIndex s _⟩, fun h => (exec_eq_fault _ _ _).2 ⟨rfl, h⟩⟩
  exact Memory.read_writeBytes_outside s.mem s.i.toNat a _ (by rwa [length_registersUpTo])

/-- Settles O44: LoadRegisters writes the registers alone, up to `x` from memory. -/
theorem loadRegistersReadsBlock : Obligations.LoadRegistersReadsBlock := by
  refine fun x s => ⟨fun h => ⟨_, exec_loadRegisters_eq h, fun k hk => ?_, fun k hk => ?_, ?_⟩,
    fun h => (exec_eq_fault _ _ _).2 ⟨rfl, h⟩⟩
  · rw [readV_loadRegistersUpTo, if_pos hk]
  · rw [readV_loadRegistersUpTo, if_neg (Nat.not_le.2 hk)]
  · simp [KeepsMemory, KeepsScreen, KeepsStack, KeepsTimers, KeepsHidden]

/-- Settles O45: the span is the one StoreRegisters passed, and the bytes in it are the ones it wrote. -/
theorem loadRegistersUndoesStore : Obligations.LoadRegistersUndoesStore := by
  intro x s t u h hmem hi
  obtain ⟨hspan, rfl⟩ := exec_next_inv h
  have hload : exec (.loadRegisters x) u = .next (loadRegistersUpTo u x) := exec_loadRegisters_eq (by rwa [hi])
  refine ⟨_, hload, fun k hk => ?_⟩
  rw [readV_loadRegistersUpTo, if_pos hk, hmem, hi, read_storeRegisters s hk]

/-- Settles O26: a fetch reads two bytes of the block that StoreRegisters wrote. -/
theorem storeSeenByNextFetch : Obligations.StoreSeenByNextFetch := by
  intro s t u x k k' h hk' hx hmem hpc
  obtain ⟨hspan, rfl⟩ := exec_next_inv h
  have hhi : u.mem.read u.pc.toNat = readV s k := by
    rw [hmem, hpc, read_storeRegisters s (by omega)]
  have hlo : u.mem.read (u.pc.toNat + 1) = readV s k' := by
    rw [hmem, hpc, Nat.add_assoc, ← hk', read_storeRegisters s hx]
  refine ⟨by omega, ?_⟩
  have hlt := (readV s k).isLt
  have hlt' := (readV s k').isLt
  rw [hhi, hlo, BitVec.toNat_ofNat]
  omega

/-! ## The index register -/

/-- R163: the product fits in `I`. -/
theorem ofNat_glyphAddress_toNat (s : State) (x : Reg) :
    (BitVec.ofNat 16 (glyphAddress s x)).toNat = (readV s x).toNat * 5 := by
  have := (readV s x).isLt
  rw [BitVec.toNat_ofNat, glyphAddress_eq, Nat.mod_eq_of_lt (by omega)]

/-- R33: where memory holds the font at 0..79, the five bytes from `5 * d` on are glyph `d` of it. -/
theorem font_getElem?_eq_read {s : State} {f : FontTable}
    (hfont : ∀ a : Fin Config.fontLen, s.mem.read a.val = f[a.val]) {d k : Nat} (hd : d ≤ 15) (hk : k < 5) :
    f[5 * d + k]? = some (s.mem.read (d * 5 + k)) := by
  have hglyph : d * 5 + k < 80 := by omega
  rw [Nat.mul_comm, Vector.getElem?_eq_getElem hglyph, ← hfont ⟨_, hglyph⟩]

/-- Settles O41: AddToIndex is an addition on 16 bits, and SelectCharacter's product is at most 1275, inside the font for
a digit. -/
theorem indexArithmetic : Obligations.IndexArithmetic := by
  refine fun x s => ⟨⟨_, rfl, ?_, rfl, keeps_indexWrite s _⟩, ?_⟩
  · simp [BitVec.toNat_add]
  · have hi := ofNat_glyphAddress_toNat s x
    obtain ⟨hregs, hmem, hscreen, hstack, htimers, hhidden⟩ := keeps_indexWrite s (BitVec.ofNat 16 (glyphAddress s x))
    refine ⟨_, execSelectCharacter_eq x s, hi, ?_, rfl, hregs, hmem, hscreen, hstack, htimers, hhidden,
      fun f hfont hdigit k => ?_⟩
    · have := (readV s x).isLt
      rw [hi]
      omega
    · rw [hi]
      exact font_getElem?_eq_read hfont hdigit k.isLt

/-! ## Reset -/

/-- Settles O18: the registers, the stack, the screen and the timers are the fixed zeros of the reset, and memory reads
as the font and zero above. -/
theorem resetValues : Obligations.ResetValues := by
  refine ⟨resetWith_fontTable, fun f => ⟨fun r => ?_, rfl, rfl, rfl, fun k => ?_, fun a => ?_, fun a ha _ => ?_,
    getPixel_blankScreen, rfl, rfl, rfl, rfl⟩⟩
  · simp [readV, State.reset]
  · simp [State.reset]
  · rw [read_resetWith, dif_pos a.isLt]
  · rw [read_resetWith, dif_neg (Nat.not_lt.2 ha)]

end Sys2Proof.Machine
end

section
/-! The instructions one by one, as results and frames: the flow instructions (41_flow.md), the skips (42_skips.md),
arithmetic (43_alu.md), keys and timers (46_keys_timers.md). -/

namespace Sys2Proof.Machine

/-! ## Frames of the named updates -/

/-- The frame of every instruction that writes one register. -/
theorem registerFrame_writeV (s : State) (x : Reg) (b : Byte) : RegisterFrame [x] s (writeV s x b) := by
  refine ⟨fun r hr => ?_, fun _ => rfl, fun _ _ => rfl, ⟨rfl, fun _ => rfl⟩, ⟨rfl, rfl⟩, ⟨rfl, rfl, rfl⟩, rfl⟩
  rw [readV_writeV, if_neg (List.mem_singleton.not.1 hr)]

/-- The frame of every instruction that writes a result and the flag. -/
theorem registerFrame_writeResultThenFlag (s : State) (x : Reg) (b f : Byte) :
    RegisterFrame [x, 15] s (writeResultThenFlag s x b f) := by
  refine ⟨fun r hr => ?_, fun _ => rfl, fun _ _ => rfl, ⟨rfl, fun _ => rfl⟩, ⟨rfl, rfl⟩, ⟨rfl, rfl, rfl⟩, rfl⟩
  simp only [List.mem_cons, List.not_mem_nil, or_false, not_or] at hr
  obtain ⟨hx, hflag⟩ := hr
  rw [readV_writeResultThenFlag, if_neg (show r ≠ flagReg from hflag), if_neg hx]

/-- What a flag writer leaves in its two registers: the flag in `V[15]`, and the result in `V[x]` unless that is `V[15]`
(43_alu.md R140, decision D8). -/
theorem readV_flagWriter (s : State) (x : Reg) (b f : Byte) :
    (x ≠ 15 → readV (writeResultThenFlag s x b f) x = b) ∧ readV (writeResultThenFlag s x b f) 15 = f := by
  refine ⟨fun hx => ?_, ?_⟩
  · rw [readV_writeResultThenFlag, if_neg (show x ≠ flagReg from hx), if_pos rfl]
  · rw [readV_writeResultThenFlag, if_pos (show (15 : Reg) = flagReg from rfl)]

/-- The frame of every skip. -/
theorem registerFrame_skipNextIf (c : Bool) (s : State) : RegisterFrame [] s (skipNextIf c s) :=
  registerFrame_setPc [] s _

/-! ## Control flow -/

/-- Settles O29: the push writes the slot at `SP` alone. -/
theorem callPushesAndJumps : Obligations.CallPushesAndJumps := by
  refine fun nnn s => ⟨fun h => ⟨_, exec_call_eq nnn h, zextAddr_toNat nnn, rfl, Vector.getElem_set_self h,
    fun k hk => Vector.getElem_set_ne h k.isLt hk.symm, ?_⟩, fun h => (exec_eq_fault _ _ _).2 ⟨rfl, h⟩⟩
  exact ⟨fun _ _ => rfl, fun _ => rfl, fun _ _ => rfl, ⟨rfl, rfl⟩, ⟨rfl, rfl, rfl⟩, rfl⟩

/-- Settles O30: the pop reads the slot below `SP` and writes none. -/
theorem returnPopsPc : Obligations.ReturnPopsPc :=
  fun _ => ⟨fun k hk => ⟨_, exec_ret_eq k hk, rfl, rfl, fun _ => rfl, fun _ _ => rfl, fun _ => rfl, fun _ _ => rfl,
    ⟨rfl, rfl⟩, ⟨rfl, rfl, rfl⟩, rfl⟩, fun h => (exec_eq_fault _ _ _).2 ⟨rfl, h⟩⟩

/-- Settles O31: Return pops the slot that Call pushed. -/
theorem returnUndoesCall : Obligations.ReturnUndoesCall := by
  intro nnn s t u h hstack hsp
  obtain ⟨hlt, rfl⟩ := exec_next_inv h
  have hret := exec_ret_eq (s := u) ⟨s.sp.val, hlt⟩ (congrArg Fin.val hsp)
  refine ⟨_, hret, ?_, rfl⟩
  simp only [hstack]
  exact Vector.getElem_set_self _

/-- Settles O32: the sum is below 65536, so `PC` holds it. -/
theorem jumpRelativeAddsRegisterZero : Obligations.JumpRelativeAddsRegisterZero := by
  refine fun nnn s => ⟨fun h => ⟨_, exec_jumpRelative_eq h, ?_, registerFrame_setPc [] s _⟩,
    fun h => (exec_eq_fault _ _ _).2 ⟨rfl, h⟩⟩
  exact Nat.mod_eq_of_lt (by omega)

/-! ## Skips -/

/-- A skip that compares two bytes, in numbers. -/
theorem skipNextIf_beq_pc (a b : Byte) (s : State) :
    (skipNextIf (a == b) s).pc = (if a.toNat = b.toNat then s.pc + 2 else s.pc) ∧
    (skipNextIf (a != b) s).pc = (if a.toNat = b.toNat then s.pc else s.pc + 2) := by
  by_cases h : a = b <;> simp [h, ← BitVec.toNat_eq]

/-- Settles O34: each is `skipNextIf` of its comparison. -/
theorem skipsCompareAndSkip : Obligations.SkipsCompareAndSkip := by
  obtain ⟨-, -, hclassXkk, -⟩ := plainClassesDecode
  obtain ⟨hclassXy, -⟩ := decidedClassesDecode
  refine ⟨fun x kk => ?_, fun x y n => (hclassXy x y n).2.1, fun x kk s => ⟨?_, ?_⟩, fun x y s => ?_⟩
  · obtain ⟨h3, h4, -⟩ := hclassXkk x kk
    exact ⟨h3, h4⟩
  · exact ⟨_, rfl, (skipNextIf_beq_pc _ _ s).1, registerFrame_skipNextIf _ s⟩
  · exact ⟨_, rfl, (skipNextIf_beq_pc _ _ s).2, registerFrame_skipNextIf _ s⟩
  · exact ⟨_, rfl, (skipNextIf_beq_pc _ _ s).2, registerFrame_skipNextIf _ s⟩

/-- Settles O35: a register is equal to itself, so `x = y` always skips. -/
theorem skipIfEqualRegisterCompares : Obligations.SkipIfEqualRegisterCompares := by
  obtain ⟨hclassXy, -⟩ := decidedClassesDecode
  refine fun x y => ⟨fun n => (hclassXy x y n).1, fun s =>
    ⟨_, rfl, (skipNextIf_beq_pc _ _ s).1, registerFrame_skipNextIf _ s, ?_⟩⟩
  rintro rfl
  rw [(skipNextIf_beq_pc _ _ s).1, if_pos rfl]

/-! ## Arithmetic -/

theorem readV_writeV_same (s : State) (x : Reg) (b : Byte) : readV (writeV s x b) x = b := by
  rw [readV_writeV, if_pos rfl]

/-- Settles O36: each is one `writeV`. -/
theorem loadCopyAndLogicResults : Obligations.LoadCopyAndLogicResults := by
  refine fun x y kk s => ⟨⟨_, rfl, readV_writeV_same s x kk, rfl, registerFrame_writeV s x _⟩,
    ⟨_, rfl, readV_writeV_same s x _, rfl, registerFrame_writeV s x _⟩,
    ⟨_, rfl, ?_, rfl, registerFrame_writeV s x _⟩, ⟨_, rfl, ?_, rfl, registerFrame_writeV s x _⟩,
    ⟨_, rfl, ?_, rfl, registerFrame_writeV s x _⟩⟩ <;> rw [readV_writeV_same]
  · exact BitVec.toNat_or _ _
  · exact BitVec.toNat_and _ _
  · exact BitVec.toNat_xor _ _

/-- What every flag writer answers: the result and the flag in numbers, unless they meet in `V[15]`, and the frame (R140,
R152). -/
theorem flagWriter_spec (s : State) (x : Reg) {b f : Byte} {result flag : Nat} (hb : b.toNat = result)
    (hf : f.toNat = flag) :
    (x ≠ 15 → (readV (writeResultThenFlag s x b f) x).toNat = result) ∧
    (readV (writeResultThenFlag s x b f) 15).toNat = flag ∧ (writeResultThenFlag s x b f).pc = s.pc ∧
    RegisterFrame [x, 15] s (writeResultThenFlag s x b f) := by
  obtain ⟨hresult, hflag⟩ := readV_flagWriter s x b f
  exact ⟨fun hx => (hresult hx).symm ▸ hb, hflag.symm ▸ hf, rfl, registerFrame_writeResultThenFlag s x b f⟩

/-- R142: the flag of AddValue is 0 on carry (decision D9). -/
theorem noCarryFlag_toNat (a b : Byte) : (noCarryFlag a b).toNat = if 255 < a.toNat + b.toNat then 0 else 1 := by
  by_cases h : 255 < a.toNat + b.toNat <;> simp [noCarryFlag, h, Nat.le_of_not_lt]

/-- R147. -/
theorem carryFlag_toNat (a b : Byte) : (carryFlag a b).toNat = if 255 < a.toNat + b.toNat then 1 else 0 := by
  simp [carryFlag]

/-- R148, R150. -/
theorem noBorrowFlag_toNat (a b : Byte) : (noBorrowFlag a b).toNat = if b.toNat ≤ a.toNat then 1 else 0 := by
  simp [noBorrowFlag]

/-- A difference modulo 256: with a borrow, 256 is added. -/
theorem sub_toNat (a b : Byte) :
    (a - b).toNat = if b.toNat ≤ a.toNat then a.toNat - b.toNat else a.toNat + 256 - b.toNat := by
  have ha := a.isLt
  have hb := b.isLt
  rw [BitVec.toNat_sub]
  split <;> omega

/-- Settles O37: each is a flag writer, whose sum or difference and flag are read as numbers. -/
theorem addAndSubtractResults : Obligations.AddAndSubtractResults :=
  fun x y kk s =>
    ⟨⟨_, rfl, flagWriter_spec s x (BitVec.toNat_add _ kk) (noCarryFlag_toNat _ kk)⟩,
      ⟨_, rfl, flagWriter_spec s x (BitVec.toNat_add _ (readV s y)) (carryFlag_toNat _ _)⟩,
      ⟨_, rfl, flagWriter_spec s x (sub_toNat _ (readV s y)) (noBorrowFlag_toNat _ _)⟩,
      ⟨_, rfl, flagWriter_spec s x (sub_toNat (readV s y) _) (noBorrowFlag_toNat _ _)⟩⟩

/-- R149: a shift to the right is a halving, and the bit lost is the remainder. -/
theorem shiftRight_toNat (a : Byte) : (a >>> 1).toNat = a.toNat / 2 ∧ (lowBitFlag a).toNat = a.toNat % 2 := by
  refine ⟨by simp [Nat.shiftRight_eq_div_pow], ?_⟩
  have := Nat.mod_two_eq_zero_or_one a.toNat
  rw [lowBitFlag, flagByte_toNat, ← BitVec.testBit_toNat, Nat.testBit_zero]
  rcases this with h | h <;> simp [h]

/-- R151: a shift to the left is a doubling modulo 256, and the bit lost is 1 from 128 on. -/
theorem shiftLeft_toNat (a : Byte) : (a <<< 1).toNat = 2 * a.toNat % 256 ∧ (highBitFlag a).toNat = a.toNat / 128 := by
  have hlt := a.isLt
  refine ⟨by simp [Nat.shiftLeft_eq, Nat.mul_comm], ?_⟩
  rw [highBitFlag, flagByte_toNat, ← BitVec.testBit_toNat, Nat.testBit_eq_decide_div_mod_eq]
  have : a.toNat / 128 = 0 ∨ a.toNat / 128 = 1 := by omega
  rcases this with h | h <;> simp [h]

/-- Settles O38: each is a flag writer that does not read `y`. -/
theorem shiftResults : Obligations.ShiftResults := by
  intro x y s
  obtain ⟨hhalf, hlow⟩ := shiftRight_toNat (readV s x)
  obtain ⟨hdouble, hhigh⟩ := shiftLeft_toNat (readV s x)
  obtain ⟨hr, hrflag, hrpc, hrframe⟩ := flagWriter_spec s x hhalf hlow
  obtain ⟨hl, hlflag, hlpc, hlframe⟩ := flagWriter_spec s x hdouble hhigh
  exact ⟨⟨_, rfl, hr, hrflag, hrpc, hrframe, fun _ => rfl⟩, ⟨_, rfl, hl, hlflag, hlpc, hlframe, fun _ => rfl⟩⟩

/-- Settles O39: the write of one register after the count of one draw. -/
theorem randomMasksOneDraw : Obligations.RandomMasksOneDraw := by
  intro x kk s
  have hresult := readV_writeV_same (countDraw s) x (Config.randomByte s.draws &&& kk)
  obtain ⟨hregs, hmem, hscreen, hstack, htimers, -, hi⟩ :=
    registerFrame_writeV (countDraw s) x (Config.randomByte s.draws &&& kk)
  refine ⟨_, rfl, hresult, ?_, rfl, rfl, hregs, hmem, hscreen, hstack, htimers, hi, rfl, rfl⟩
  rw [hresult, BitVec.and_assoc, BitVec.and_not_self]
  exact BitVec.and_zero

/-! ## Display -/

/-- Settles O46: every pixel of the blank screen is clear. -/
theorem clearScreenBlanksAll : Obligations.ClearScreenBlanksAll :=
  fun _ => ⟨_, rfl, getPixel_blankScreen, rfl, fun _ _ => rfl, fun _ => rfl, ⟨rfl, fun _ => rfl⟩, ⟨rfl, rfl⟩,
    ⟨rfl, rfl, rfl⟩, rfl⟩

/-! ## Keys and timers -/

/-- Settles O50: the key stored is held and none below it is, so it is the lowest. -/
theorem waitForKeyStoresLowestHeld : Obligations.WaitForKeyStoresLowestHeld := by
  refine fun x s => ⟨fun hkeys => ?_, fun hkeys => (exec_eq_fault _ _ _).2 ⟨rfl, hkeys⟩⟩
  obtain ⟨k, hexec, hheld, hlowest⟩ := exec_waitForKey_eq x hkeys
  have hk := k.isLt
  have hstored : (readV (writeV s x (BitVec.ofNat 8 k.val)) x).toNat = k.val := by
    rw [readV_writeV_same, BitVec.toNat_ofNat, Nat.mod_eq_of_lt (by omega)]
  refine ⟨_, hexec, ?_, ?_, fun j hj => ?_, rfl, registerFrame_writeV s x _⟩
  · rwa [hstored]
  · rwa [hstored, ← keyHeld_eq_testBit]
  · rw [hstored] at hj
    have := hlowest ⟨j, by omega⟩ hj
    rwa [keyHeld_eq_testBit] at this

/-- The opcodes of the two key skips, as words of class E (30_encoding.md R85). -/
theorem decodeWord_keySkips (x : Reg) :
    decodeWord (BitVec.ofNat 16 (0xE09E + x.val * 256)) = .ok (.skipIfKeyPressed x) ∧
    decodeWord (BitVec.ofNat 16 (0xE0A1 + x.val * 256)) = .ok (.skipIfKeyNotPressed x) := by
  obtain ⟨-, -, hclassXkk, -⟩ := plainClassesDecode
  obtain ⟨-, -, -, -, -, hpressed⟩ := hclassXkk x 0x9E
  obtain ⟨-, -, -, -, -, hnotPressed⟩ := hclassXkk x 0xA1
  constructor
  · rw [show 0xE09E + x.val * 256 = 0xE000 + x.val * 256 + (0x9E : Byte).toNat by simp; omega, hpressed]
    rfl
  · rw [show 0xE0A1 + x.val * 256 = 0xE000 + x.val * 256 + (0xA1 : Byte).toNat by simp; omega, hnotPressed]
    rfl

/-- A step that fetches an instruction whose effect raises `e`, WaitForKey aside, leaves `PC` advanced (R106). -/
theorem runCommand_step_of_raisedBy {s : State} {op : Word} {i : Instr} {e : Fault} (hf : Fetches s op)
    (hd : decodeWord op = .ok i) (hb : blocks i s = false) (he : raisedBy i (advancePc s) e) :
    runCommand .step s = (advancePc s, .error e) := by
  have hstep : step s = .fault e := by
    rw [step, stepWith_eq _ hf hd hb, thenUpdate_eq_fault]
    exact (exec_eq_fault _ _ _).2 he
  rw [runCommand_step_of_fault hstep, stateLeftBy_of_raisedBy he]

/-- Settles O49: up to 15 the skip reads one bit of `KEYS`, above 15 both raise the error. -/
theorem keySkipsFollowKeys : Obligations.KeySkipsFollowKeys := by
  intro x
  obtain ⟨hpressed, hnotPressed⟩ := decodeWord_keySkips x
  refine ⟨hpressed, hnotPressed, fun s hx => ?_, fun s hx => ⟨(exec_eq_fault _ _ _).2 ⟨rfl, hx⟩,
    (exec_eq_fault _ _ _).2 ⟨rfl, hx⟩, ?_⟩⟩
  · obtain ⟨hexec, hexecNot⟩ := exec_keySkips_eq (x := x) (s := s) ⟨(readV s x).toNat, by omega⟩ rfl
    rw [keyHeld_eq_testBit] at hexec hexecNot
    refine ⟨⟨_, hexec, rfl, registerFrame_skipNextIf _ s⟩, ⟨_, hexecNot, ?_, registerFrame_skipNextIf _ s⟩⟩
    simp only [skipNextIf_pc, Bool.not_eq_true', ← Bool.not_eq_true, ite_not]
  · rintro (hf | hf)
    · exact runCommand_step_of_raisedBy hf hpressed rfl ⟨rfl, hx⟩
    · exact runCommand_step_of_raisedBy hf hnotPressed rfl ⟨rfl, hx⟩

/-- Settles O51: one register write and two timer writes. -/
theorem timerInstructionsMoveBytes : Obligations.TimerInstructionsMoveBytes := by
  refine fun x s => ⟨⟨_, rfl, readV_writeV_same s x s.dt, rfl, registerFrame_writeV s x _⟩,
    ⟨_, rfl, rfl, rfl, rfl, ?_⟩, ⟨_, rfl, rfl, rfl, rfl, ?_⟩⟩
  all_goals
    exact ⟨fun _ _ => rfl, fun _ => rfl, fun _ _ => rfl, ⟨rfl, fun _ => rfl⟩, ⟨rfl, rfl, rfl⟩, rfl⟩

end Sys2Proof.Machine
end

section
/-! Draw (45_display.md R171 to R173): the state it leaves, read pixel by pixel in the terms of `UnderSprite`. -/

namespace Sys2Proof.Machine

/-- The state Draw leaves when its span lies in memory (R172). -/
def afterDraw (x y : Reg) (n : SpriteLen) (s : State) : State :=
  writeV { s with screen := (drawSprite s.screen (readV s x) (readV s y) (loadAtIndex s n.val)).1 } flagReg
    (collisionFlag (drawSprite s.screen (readV s x) (readV s y) (loadAtIndex s n.val)).2)

theorem exec_draw_eq_afterDraw (x y : Reg) {n : SpriteLen} {s : State} (h : s.i.toNat + n.val ≤ 4096) :
    exec (.draw x y n) s = .next (afterDraw x y n s) :=
  exec_draw_eq x y h

section
variable (x y : Reg) (n : SpriteLen) (s : State)

/-- The laws of a sprite for the sprite at `I`, whose `n` rows are few enough not to overlap. -/
theorem drawSprite_atIndex :
    (∀ r c, getPixel (afterDraw x y n s).screen r c =
      (getPixel s.screen r c ^^ decide ((r, c) ∈ spritePixels (readV s x) (readV s y) 0 (loadAtIndex s n.val)))) ∧
    ((drawSprite s.screen (readV s x) (readV s y) (loadAtIndex s n.val)).2 = true ↔
      ∃ r c, UnderSprite s x y n r c ∧ getPixel s.screen r c = true) := by
  have hrows : (loadAtIndex s n.val).length ≤ 32 := by
    rw [loadAtIndex, Memory.length_readBytes]
    exact Nat.le_trans (Nat.le_of_lt n.isLt) (by decide)
  obtain ⟨hpixel, hhit⟩ := drawSprite_spec s.screen (readV s x) (readV s y) (loadAtIndex s n.val) hrows
  refine ⟨hpixel, ?_⟩
  rw [hhit]
  simp only [Prod.exists, mem_spritePixels_iff_underSprite]

/-- R171, R172: a pixel under the sprite is flipped and every other one is kept. -/
theorem getPixel_afterDraw (r : Fin Config.screenH) (c : Fin Config.screenW) :
    (UnderSprite s x y n r c → getPixel (afterDraw x y n s).screen r c = !(getPixel s.screen r c)) ∧
    (¬ UnderSprite s x y n r c → getPixel (afterDraw x y n s).screen r c = getPixel s.screen r c) := by
  obtain ⟨hpixel, -⟩ := drawSprite_atIndex x y n s
  rw [hpixel, ← mem_spritePixels_iff_underSprite]
  exact ⟨fun h => by rw [decide_eq_true h, Bool.xor_true], fun h => by rw [decide_eq_false h, Bool.xor_false]⟩

/-- R172: `V[15]` is 1 when a pixel under the sprite was set, and 0 otherwise (decision D13). -/
theorem readV_afterDraw_flag :
    ((∃ r c, UnderSprite s x y n r c ∧ getPixel s.screen r c = true) → readV (afterDraw x y n s) 15 = 1) ∧
    ((¬ ∃ r c, UnderSprite s x y n r c ∧ getPixel s.screen r c = true) → readV (afterDraw x y n s) 15 = 0) := by
  obtain ⟨-, hhit⟩ := drawSprite_atIndex x y n s
  have hflag : readV (afterDraw x y n s) 15 = _ := readV_writeV_same _ flagReg _
  rw [hflag, ← hhit]
  exact ⟨fun h => by rw [h]; rfl, fun h => by rw [Bool.eq_false_of_not_eq_true h]; rfl⟩

/-- R172: Draw writes no register but the flag. -/
theorem readV_afterDraw_of_ne {r : Reg} (hr : r ≠ 15) : readV (afterDraw x y n s) r = readV s r := by
  rw [afterDraw, readV_writeV, if_neg (show r ≠ flagReg from hr), readV_mk]

end

/-- Settles O47: the pixels, the flag and the frame of `afterDraw`. -/
theorem drawXorsSpriteAndSetsCollision : Obligations.DrawXorsSpriteAndSetsCollision := by
  refine fun x y n s => ⟨fun h => ⟨_, exec_draw_eq_afterDraw x y h, getPixel_afterDraw x y n s, ?_⟩,
    fun h => (exec_eq_fault _ _ _).2 ⟨rfl, h⟩⟩
  obtain ⟨hset, hclear⟩ := readV_afterDraw_flag x y n s
  exact ⟨hset, hclear, fun r hr => readV_afterDraw_of_ne x y n s (List.mem_singleton.not.1 hr), fun _ => rfl,
    ⟨rfl, fun _ => rfl⟩, ⟨rfl, rfl⟩, ⟨rfl, rfl, rfl⟩, rfl, rfl⟩

/-- With coordinates outside `V[15]` the second Draw finds the sprite where the first one found it. -/
theorem underSprite_afterDraw {x y : Reg} (hx : x ≠ 15) (hy : y ≠ 15) (n : SpriteLen) (s : State)
    (r : Fin Config.screenH) (c : Fin Config.screenW) :
    UnderSprite (afterDraw x y n s) x y n r c ↔ UnderSprite s x y n r c := by
  rw [UnderSprite, readV_afterDraw_of_ne x y n s hx, readV_afterDraw_of_ne x y n s hy]
  rfl

/-- Settles O48: the second Draw flips the same pixels, so each is flipped twice or not at all, and it finds set exactly
those that the first one found clear. -/
theorem drawTwiceRestoresScreen : Obligations.DrawTwiceRestoresScreen := by
  intro x y n s hx hy h
  refine ⟨_, _, exec_draw_eq_afterDraw x y h, exec_draw_eq_afterDraw x y (s := afterDraw x y n s) h, fun r c => ?_, ?_⟩
  · obtain ⟨hflip, hkeep⟩ := getPixel_afterDraw x y n s r c
    obtain ⟨hflip', hkeep'⟩ := getPixel_afterDraw x y n (afterDraw x y n s) r c
    rw [underSprite_afterDraw hx hy] at hflip' hkeep'
    by_cases hunder : UnderSprite s x y n r c
    · rw [hflip' hunder, hflip hunder, Bool.not_not]
    · rw [hkeep' hunder, hkeep hunder]
  · have hnew : (∃ r c, UnderSprite (afterDraw x y n s) x y n r c ∧ getPixel (afterDraw x y n s).screen r c = true) ↔
        ∃ r c, UnderSprite s x y n r c ∧ getPixel s.screen r c = false := by
      refine exists₂_congr fun r c => ?_
      rw [underSprite_afterDraw hx hy]
      refine and_congr_right fun hunder => ?_
      rw [(getPixel_afterDraw x y n s r c).1 hunder, Bool.not_eq_true']
    obtain ⟨hset, hclear⟩ := readV_afterDraw_flag x y n (afterDraw x y n s)
    rw [hnew] at hset hclear
    refine ⟨fun hone => ?_, hset⟩
    by_contra hnone
    rw [hclear hnone] at hone
    exact absurd hone (by decide)

end Sys2Proof.Machine
end
